-- ==== Sys2Proof/Word.lean ====
section
/-! DEFINITION. The words the block handles, and its two ports.

Bit 0 is the least significant bit and every value is unsigned (R13). A command is one 32-bit word (R80);
every memory access is one byte (R56); the data bus is four bits wide (R35). -/

namespace Sys2Proof

/-- A command word: one 32-bit unit with bit 31 most significant (R80, R58). -/
abbrev Word := BitVec 32

/-- One byte of the framebuffer or of the glyph ROM (R56). -/
abbrev Byte := BitVec 8

/-- One value of the data bus DOUT (R35). -/
abbrev Nibble := BitVec 4

/-- The two command ports (R80, R209). The host port accepts WRCHAR, RDCELL and PLOT, the timer port TICK (R90). -/
inductive Port where
  | host
  | timer
  deriving DecidableEq, Repr, Inhabited

end Sys2Proof
end

