-- ==== Sys2Proof/Syntax.lean ====
section
/-! DEFINITION. The commands of the block: one constructor for each row of spec/opcode_table.json.

The operands have the widths of their fields (R85), so every term of this type has an encoding (Decode.lean). An operand
may fit its field and still lie outside its legal range (R92): WellFormed.lean says which operands are legal. -/

namespace Sys2Proof

/-- A command of command interface v1 (R80). -/
inductive Instr where
  /-- WRCHAR ofs, code: store a byte in the framebuffer (R81, R100). -/
  | wrchar (ofs : BitVec 10) (code : Byte)
  /-- RDCELL ofs: read a byte of the framebuffer back (R82, R102). -/
  | rdcell (ofs : BitVec 10)
  /-- PLOT x, y, on: set or clear one dot of the canvas (R83, R103). -/
  | plot (x : BitVec 7) (y : BitVec 6) (on : Bool)
  /-- TICK: output one panel line and advance the scan state (R84, R131). -/
  | tick
  deriving DecidableEq, Repr, Inhabited

end Sys2Proof
end

