-- ==== Sys2Proof/Decode.lean ====
section
/-! DEFINITION. Decoding a command word (R80 to R92), the encoder written from the same formats, and the reading of an
opcode-table word.

Decoding is total on all 2^32 words and both ports (R86). Every rejection is ILLEGAL_COMMAND (R87, R88, R90); the model
names which of the three checks rejected the word. -/

namespace Sys2Proof

/-- Why a word is ILLEGAL_COMMAND (R201: OP reserved, a reserved bit set, or the operation not accepted on that port). -/
inductive Illegal where
  /-- OP is not one of WRCHAR, RDCELL, PLOT and TICK (R87). -/
  | reservedOp
  /-- A bit marked "reserved, must be zero" is set (R88). -/
  | reservedBits
  /-- The word decodes to an operation of the other port (R90). -/
  | wrongPort
  deriving DecidableEq, Repr

/-- What decoding a word gives: a command, or ILLEGAL_COMMAND with the check that failed (R86). -/
inductive Decoded where
  | command (i : Instr)
  | illegal (why : Illegal)
  deriving DecidableEq, Repr

/-! ### Fields (R81 to R85) -/

/-- OP = w[31:28] (R80). -/
def opField (w : Word) : BitVec 4 := w.extractLsb' 28 4

/-- OFS = w[25:16] (R81, R82). -/
def ofsField (w : Word) : BitVec 10 := w.extractLsb' 16 10

/-- CODE = w[7:0] (R81). -/
def codeField (w : Word) : Byte := w.extractLsb' 0 8

/-- X = w[22:16] (R83). -/
def xField (w : Word) : BitVec 7 := w.extractLsb' 16 7

/-- Y = w[13:8] (R83). -/
def yField (w : Word) : BitVec 6 := w.extractLsb' 8 6

/-- ON = w[0] (R83). -/
def onField (w : Word) : Bool := w.getLsbD 0

/-- The reserved bits of format W are zero: [27:26] and [15:8] (R81). -/
def reservedClearW (w : Word) : Bool :=
  w.extractLsb' 26 2 == 0#2 && w.extractLsb' 8 8 == 0#8

/-- The reserved bits of format R are zero: [27:26] and [15:0] (R82). -/
def reservedClearR (w : Word) : Bool :=
  w.extractLsb' 26 2 == 0#2 && w.extractLsb' 0 16 == 0#16

/-- The reserved bits of format P are zero: [27:23], [15:14] and [7:1] (R83). -/
def reservedClearP (w : Word) : Bool :=
  w.extractLsb' 23 5 == 0#5 && w.extractLsb' 14 2 == 0#2 && w.extractLsb' 1 7 == 0#7

/-- The reserved bits of format T are zero: [27:0] (R84). -/
def reservedClearT (w : Word) : Bool := w.extractLsb' 0 28 == 0#28

/-! ### Decoding (R86) -/

/-- The port that accepts a command (R80, R90). -/
def Instr.port : Instr → Port
  | .wrchar _ _ => .host
  | .rdcell _ => .host
  | .plot _ _ _ => .host
  | .tick => .timer

/-- R86 up to its port check: the operation from OP, then the format's reserved bits. -/
def decodeWord (w : Word) : Decoded :=
  if opField w = 0b0001#4 then
    if reservedClearW w then .command (.wrchar (ofsField w) (codeField w)) else .illegal .reservedBits
  else if opField w = 0b0010#4 then
    if reservedClearR w then .command (.rdcell (ofsField w)) else .illegal .reservedBits
  else if opField w = 0b0011#4 then
    if reservedClearP w then .command (.plot (xField w) (yField w) (onField w)) else .illegal .reservedBits
  else if opField w = 0b1000#4 then
    if reservedClearT w then .command .tick else .illegal .reservedBits
  else .illegal .reservedOp

/-- R86: decode a word that arrived on a port. -/
def decode (p : Port) (w : Word) : Decoded :=
  match decodeWord w with
  | .command i => if i.port = p then .command i else .illegal .wrongPort
  | .illegal why => .illegal why

/-! ### Encoding (R81 to R84) -/

/-- The word of a command, laid out as R81 to R84 give the formats. -/
def encode : Instr → Word
  | .wrchar ofs code => 0b0001#4 ++ 0#2 ++ ofs ++ 0#8 ++ code
  | .rdcell ofs => 0b0010#4 ++ 0#2 ++ ofs ++ 0#16
  | .plot x y on => 0b0011#4 ++ 0#5 ++ x ++ 0#2 ++ y ++ 0#7 ++ BitVec.ofBool on
  | .tick => 0b1000#4 ++ 0#28

/-! ### Opcode-table words -/

/-- The port on which a word of spec/opcode_table.json is presented: the timer port for TICK's OP, the host port for every
other (the table's "port" column, R80; log 4). -/
def tablePort (w : Word) : Port := if opField w = 0b1000#4 then .timer else .host

/-- The command word made of the low nbits bits of w. The table numbers a word's bits as R13 does, and a command is one
word that no port splits into bytes (R58, R80), so there is no byte order to undo. -/
def tableWord (nbits w : Nat) : Word := BitVec.ofNat 32 (w % 2 ^ nbits)

/-- The command the decoder reads from an opcode-table word, on the port the table gives it. -/
def decodeTableWord (nbits w : Nat) : Option Instr :=
  match decode (tablePort (tableWord nbits w)) (tableWord nbits w) with
  | .command i => some i
  | .illegal _ => none

end Sys2Proof
end

