-- ==== Sys2Proof/Config.lean ====
section
/-! DEFINITION. The configuration of one instance of the block: R20 says that GLYPH_ROM and every parameter of R7 and R8 are
not state but are fixed for a run.

The parameters of R7 are fixed by the source and stand here as numbers. The parameters of R8 that the spec leaves open
are opaque constants: nothing in Lean can evaluate one, so a theorem about the model holds whatever its value is. -/

namespace Sys2Proof

/-- The two values DOT_TAG may have (R26, D9): bit 1 of the tag is always set, because codes 0..127 are characters. -/
inductive DotTag where
  /-- DOT_TAG = 0b10, so DOT_TAG_BYTE = 0x80. -/
  | tag10
  /-- DOT_TAG = 0b11, so DOT_TAG_BYTE = 0xC0. -/
  | tag11
  deriving DecidableEq, Repr, Inhabited

/-- The electrical sense of a line (R8 LINE_POLARITY, D18). -/
inductive Polarity where
  | activeHigh
  | activeLow
  deriving DecidableEq, Repr, Inhabited

namespace Config

/-! ### Fixed by the source (R7) -/

/-- CHAR_ROWS (R7). -/
abbrev charRows : Nat := 20
/-- CHAR_COLS, the framebuffer's row stride (R7, R10). -/
abbrev charCols : Nat := 40
/-- FB_SIZE = CHAR_ROWS × CHAR_COLS (R7). -/
abbrev fbSize : Nat := 800
/-- FONT_COUNT (R7). -/
abbrev fontCount : Nat := 256
/-- FONT_HEIGHT: pixel rows per glyph, and planes of the ROM (R7). -/
abbrev fontHeight : Nat := 12
/-- GLYPH_WIDTH: dots per glyph row, the bits of one glyph byte (R7). -/
abbrev glyphWidth : Nat := 8
/-- PLANE_STRIDE: bytes per plane of the glyph table (R7). -/
abbrev planeStride : Nat := 256
/-- ROM_SIZE = FONT_COUNT × FONT_HEIGHT (R7). -/
abbrev romSize : Nat := 3072
/-- LINE_DOTS: dots per panel line (R7). -/
abbrev lineDots : Nat := 320
/-- NIBBLES_PER_LINE: two nibbles per character column (R7). -/
abbrev nibblesPerLine : Nat := 80
/-- TICKS_PER_FRAME = CHAR_ROWS × FONT_HEIGHT (R7). -/
abbrev ticksPerFrame : Nat := 240
/-- DOT_COLS: columns of the dot canvas (R7, R12). -/
abbrev dotCols : Nat := 80
/-- DOT_ROWS: rows of the dot canvas (R7, R12). -/
abbrev dotRows : Nat := 60
/-- DOTS_PER_CELL: 2 columns × 3 sub-rows (R7, R12). -/
abbrev dotsPerCell : Nat := 6

/-! ### Decided by the spec (R8) -/

/-- BLANK_CODE, the space character: the spec's default 0x20 (R8, R231, D10; log 7). -/
def blankCode : Byte := 0x20

/-- FLM_RESET, the frame-marker state at reset: released (R8, R32, D17). -/
def flmReset : Bool := false

/-! ### Left open by the spec (R8): opaque, no value can be used -/

/-- DOT_TAG, one of 0b10 and 0b11 (R8, R26, D9, P1; log 5). -/
opaque dotTag : DotTag

/-- GLYPH_ROM: the byte at each address 0..3071, plane-major: pixel row p of glyph c at p*256 + c (R8, R11, R36, R53, D23,
P7; log 6). Addresses from 3072 on are unmapped; the one reading operation (romRead) never looks there (R52). -/
opaque glyphRom : Nat → Byte

/-- BOX_UL, the upper-left corner's code (R8, R174, D11; log 13). -/
opaque boxUL : Byte
/-- BOX_UR, the upper-right corner's code (R8, R174, D11; log 13). -/
opaque boxUR : Byte
/-- BOX_LL, the lower-left corner's code (R8, R174, D11; log 13). -/
opaque boxLL : Byte
/-- BOX_LR, the lower-right corner's code (R8, R174, D11; log 13). -/
opaque boxLR : Byte
/-- BOX_H, the horizontal edge's code (R8, R174, D11; log 13). -/
opaque boxH : Byte
/-- BOX_V, the vertical edge's code (R8, R174, D11; log 13). -/
opaque boxV : Byte

/-- DOUT_RESET: the level of the data lines at reset, unspecified (R8, R35, D20, U11; log 9). -/
opaque doutReset : Nibble

/-- TICK_PERIOD, in timer counts: open, and no rule of the model uses it (R8, R210, D21, P4; log 14). -/
opaque tickPeriod : Nat

/-- LINE_POLARITY of CP (R8, R35, D18, P5; log 14). -/
opaque cpPolarity : Polarity
/-- LINE_POLARITY of LP (R8, R35, D18, P5; log 14). -/
opaque lpPolarity : Polarity
/-- LINE_POLARITY of FLM (R8, R35, D18, P5; log 14). -/
opaque flmPolarity : Polarity

end Config

end Sys2Proof
end

