-- ==== Sys2Proof/Machine/State.lean ====
section
/-! DEFINITION. The machine's state as plain data, the reasons a step can stop, and the state right after RESET.

R20 lists the block's state: the framebuffer, the scan state PR, CR, GRB, FRP and FLM, the output lines, and STATUS. The
output trace (R130), the bytes RDCELL has returned (R14, R102), the host's CURSOR (R170) and the commands on their way to
the block stand beside it. -/

namespace Sys2Proof.Machine

/-- A strobe or marker line of the output bus (R35). -/
inductive Line where
  /-- CP, the pixel-load strobe. -/
  | cp
  /-- LP, the line-load strobe. -/
  | lp
  /-- The FLM line, the frame marker. -/
  | flm
  deriving DecidableEq, Repr

/-- An event of the output bus (R130). -/
inductive BusEvent where
  /-- WriteNibble(v): DOUT takes v. -/
  | writeNibble (v : Nibble)
  /-- Assert(line): the line goes to 1. -/
  | assertLine (l : Line)
  /-- Release(line): the line goes to 0. -/
  | releaseLine (l : Line)
  deriving DecidableEq, Repr

/-- STATUS.CAUSE (R201). -/
inductive Cause where
  /-- 0b00: no fault since reset. -/
  | noFault
  /-- 0b01, ILLEGAL_COMMAND: OP reserved, a reserved bit set, or the operation not accepted on that port. -/
  | illegalCommand
  /-- 0b10, OFFSET_RANGE: WRCHAR or RDCELL with OFS >= 800. -/
  | offsetRange
  /-- 0b11, PLOT_RANGE: PLOT with X >= 80 or Y >= 60. -/
  | plotRange
  deriving DecidableEq, Repr

/-- A host-side pseudo-operation (R170 to R177). It has no command word of its own (R5). -/
inductive PseudoOp where
  /-- SETCUR row, col (R171). -/
  | setcur (row col : Nat)
  /-- PUTC b (R172). -/
  | putc (b : Byte)
  /-- PUTS s: the bytes of s up to its terminating zero byte; a list that holds no zero byte ends at its last byte (R173,
  log 16). -/
  | puts (s : List Byte)
  /-- DRAWBOX row, col, width, height (R174). -/
  | drawbox (row col width height : Nat)
  deriving DecidableEq, Repr

/-- What the host issues next: a command word, or a pseudo-operation that it first expands into command words (R5, R80). -/
inductive HostItem where
  | command (w : Word)
  | pseudo (p : PseudoOp)
  deriving DecidableEq, Repr

/-- Which agent moves next in the total order of events (R62). -/
inductive Turn where
  /-- The host's next micro-operation goes: the first one of its next command, or the next one of the command under way
  (R110). -/
  | host
  /-- The Timer presents w on the timer port (R90, R204). -/
  | timer (w : Word)
  /-- The reset input is applied (R230). -/
  | reset
  deriving DecidableEq, Repr

/-- The framebuffer's contents in one canonical form: the offsets rising strictly, and no entry equal to BLANK_CODE, which
is what an unlisted offset reads as because RESET blanks every byte (R231; log 8). -/
abbrev Memory := List Host.Cell

/-- A step stops. Only the refresh engine raises these, and only from scan registers that no run reaches (R133, R134, R135):
the spec says the engine never forms such an address. Safe: the model stops where the spec gives no meaning (log 12). -/
inductive Fault where
  /-- A framebuffer access at an offset outside 0..799 (R51). Raised by the one framebuffer access operation. -/
  | unmappedFb (offset : Nat)
  /-- A glyph ROM read at an address outside 0..3071 (R52). Raised by the glyph lookup. -/
  | unmappedRom (address : Nat)
  deriving DecidableEq, Repr

/-- A step has no meaning. -/
inductive Refusal where
  /-- The instruction has no meaning in the model yet. No arm of exec answers so: every row of the table is modelled. Safe. -/
  | notModelled (mnemonic : String)
  deriving DecidableEq, Repr

/-- The state of the machine (R20, R35, R130, R170). -/
structure State where
  /-- FB, 800 bytes (R25). -/
  fb : Memory
  /-- PR, the pixel rows of the current character row not yet output (R28). -/
  pr : BitVec 4
  /-- CR, the character rows of the current frame not yet completed (R29). -/
  cr : BitVec 5
  /-- GRB, the ROM address of the plane the next tick outputs (R30). -/
  grb : BitVec 12
  /-- FRP, the FB offset of column 0 of the row the next tick outputs (R31). -/
  frp : BitVec 10
  /-- FLM, the frame-marker state, which is the FLM line (R32, R35). -/
  flm : Bool
  /-- DOUT, the data bus (R35). -/
  dout : Nibble
  /-- CP, the pixel-load strobe (R35). -/
  cp : Bool
  /-- LP, the line-load strobe (R35). -/
  lp : Bool
  /-- STATUS.FAULTED (R33). -/
  faulted : Bool
  /-- STATUS.CAUSE (R33, R201). -/
  cause : Cause
  /-- The output trace, oldest event first (R130). -/
  trace : List BusEvent
  /-- The bytes RDCELL has returned on the host port, oldest first (R14, R102; log 10). -/
  responses : List Byte
  /-- CURSOR, host state: none until the first SETCUR (R170). -/
  cursor : Option Nat
  /-- What the host has still to issue, oldest first (R62, R80; log 4). -/
  hostPort : List HostItem
  /-- The pseudo-operations the expander has refused, oldest first (R171 to R176; log 11). -/
  refusedOps : List PseudoOp
  /-- The order in which the agents move next; where it is empty the host goes (R62, R207; log 2). -/
  turns : List Turn
  deriving DecidableEq, Repr

/-- The machine right after RESET (R38, R230, R231): the framebuffer blank, the scan state at the top of a frame, the lines
released with DOUT unspecified, STATUS clear, the trace empty. Nothing is on its way to the block (log 4). -/
def State.reset : State where
  fb := []
  pr := 12
  cr := 20
  grb := 0
  frp := 0
  flm := Config.flmReset
  dout := Config.doutReset
  cp := false
  lp := false
  faulted := false
  cause := .noFault
  trace := []
  responses := []
  cursor := none
  hostPort := []
  refusedOps := []
  turns := []

end Sys2Proof.Machine
end

