-- ==== Sys2Proof/Machine/Ops.lean ====
section
/-! DEFINITION. The operations every meaning is written over: the framebuffer, the glyph ROM, the output bus, the response
on the host port, the fault of R202, and RESET.

The block's one exception mechanism is the STATUS fault (R200 to R202): raiseFault. It saves no pc, changes no mode and has
no handler, and there is no return from it: only RESET clears STATUS (R202), so applyReset stands beside it. -/

namespace Sys2Proof.Machine

/-- The outcome of one step of this machine. -/
abbrev Result := Host.Outcome State Fault Refusal

/-- Go on with the next state, or stop where the first part stopped. -/
def andThen (r : Result) (f : State → Result) : Result :=
  match r with
  | .next s => f s
  | .fault why => .fault why
  | .refused why => .refused why

/-! ### The framebuffer (R25, R50, R51, R56) -/

/-- The byte the memory holds at an offset: BLANK_CODE where nothing is listed (log 8). -/
def Memory.get : Memory → Nat → Byte
  | [], _ => Config.blankCode
  | (a', v) :: rest, a => if a' = a then v else Memory.get rest a

/-- The memory with v at offset a, in canonical form: an offset that holds BLANK_CODE is not listed. -/
def Memory.set : Memory → Nat → Byte → Memory
  | [], a, v => if v = Config.blankCode then [] else [(a, v)]
  | (a', v') :: rest, a, v =>
    if a < a' then
      if v = Config.blankCode then (a', v') :: rest else (a, v) :: (a', v') :: rest
    else if a = a' then
      if v = Config.blankCode then rest else (a, v) :: rest
    else (a', v') :: Memory.set rest a v

/-- The canonical form from offset lo on: offsets rise strictly, lie in 0..799, and hold something else than BLANK_CODE. -/
def Memory.wfFrom : Nat → Memory → Bool
  | _, [] => true
  | lo, (a, v) :: rest =>
    decide (lo ≤ a) && decide (a < Config.fbSize) && !decide (v = Config.blankCode) && Memory.wfFrom (a + 1) rest

/-- The canonical form of the framebuffer's contents. -/
def Memory.wf (m : Memory) : Bool := Memory.wfFrom 0 m

/-- MemRead(FB:a, 1) (R14): the byte at a mapped offset; an offset outside 0..799 does not exist (R51). -/
def Memory.read (m : Memory) (a : Nat) : Option Byte := if a < Config.fbSize then some (m.get a) else none

/-- MemWrite(FB:a, 1, v) (R14); an offset outside 0..799 does not exist (R51). -/
def fbWrite (a : Nat) (v : Byte) (s : State) : Result :=
  if a < Config.fbSize then .next { s with fb := s.fb.set a v } else .fault (.unmappedFb a)

/-! ### The glyph ROM (R36, R50, R52) -/

/-- MemRead(ROM:a, 1) (R14); an address outside 0..3071 does not exist (R52). The ROM has no write (R14, R67). -/
def romRead (a : Nat) : Option Byte := if a < Config.romSize then some (Config.glyphRom a) else none

/-! ### The output bus (R130) -/

/-- The effect of an event on the output lines (R130). The FLM register is the FLM line (R35). -/
def driveLines : BusEvent → State → State
  | .writeNibble v, s => { s with dout := v }
  | .assertLine .cp, s => { s with cp := true }
  | .assertLine .lp, s => { s with lp := true }
  | .assertLine .flm, s => { s with flm := true }
  | .releaseLine .cp, s => { s with cp := false }
  | .releaseLine .lp, s => { s with lp := false }
  | .releaseLine .flm, s => { s with flm := false }

/-- Emit(e): drive the lines and append the event to the trace (R14, R130). -/
def emit (e : BusEvent) (s : State) : State :=
  { driveLines e s with trace := s.trace ++ [e] }

/-- Emit events in order (R14: statements execute in the order written). -/
def emitAll : List BusEvent → State → State
  | [], s => s
  | e :: es, s => emitAll es (emit e s)

/-! ### The host port's response (R14) -/

/-- respond(v): return v to the host as the result of the current command. -/
def respond (v : Byte) (s : State) : State := { s with responses := s.responses ++ [v] }

/-! ### Faults and RESET (R200 to R203, R230 to R232) -/

/-- raise Fault(cause) (R14, R202): STATUS records the first cause and keeps it; nothing else changes, and the block goes
on (D28). -/
def raiseFault (c : Cause) (s : State) : State :=
  if s.faulted then s else { s with faulted := true, cause := c }

/-- RESET (R230, R232): every piece of the block's state and the trace take their reset values, whatever they held. What
belongs to the host and to the order of events is not the block's and stays (log 3, log 10). -/
def applyReset (s : State) : State :=
  { State.reset with
    responses := s.responses
    cursor := s.cursor
    hostPort := s.hostPort
    refusedOps := s.refusedOps
    turns := s.turns }

end Sys2Proof.Machine
end

