-- ==== Sys2Proof/Machine/Flags.lean ====
section
/-! DEFINITION. The block has no flags and no condition codes (R23): no command sets or tests one. Its only single-bit
state is the frame marker FLM, which TICK alone writes (R131 steps 4 and 5), and STATUS.FAULTED (R33). This file holds the
two rules that move FLM and the value of STATUS a host samples. -/

namespace Sys2Proof.Machine

/-- R131 step 4: release the frame marker if it was asserted when the step is reached, that is by the previous tick (C10,
D15). -/
def releaseMarker (s : State) : State := if s.flm then emit (.releaseLine .flm) s else s

/-- R131 step 5, the end of a frame: assert the frame marker. -/
def assertMarker (s : State) : State := emit (.assertLine .flm) s

/-- The encoding of STATUS.CAUSE (R201). -/
def Cause.code : Cause → BitVec 2
  | .noFault => 0b00#2
  | .illegalCommand => 0b01#2
  | .offsetRange => 0b10#2
  | .plotRange => 0b11#2

/-- STATUS as the host samples it at any time: FAULTED and the two bits of CAUSE (R33). -/
def State.status (s : State) : Bool × BitVec 2 := (s.faulted, s.cause.code)

end Sys2Proof.Machine
end

