-- ==== Sys2Proof/Machine/Operands.lean ====
section
/-! DEFINITION. The operand forms. A command carries its operands in its word (R21), so there are two: an offset used as it
is (WRCHAR, RDCELL; R61, R85), and a dot address, which the codec turns into a cell and a bit (PLOT; R104 to R108). The
dot-address-to-cell codec is written over an explicit DOT_TAG, so that both of its values can be tried (D9). -/

namespace Sys2Proof.Machine

/-! ### Offsets (R85) -/

/-- OFS as an address: zero-extended, not scaled (R85). -/
abbrev offsetOperand (ofs : BitVec 10) : Nat := ofs.toNat

/-! ### Dot addresses (R104, R105, R107, R111) -/

/-- yt = 59 - Y: y measured from the top (R104). -/
def flipY (y : Nat) : Nat := 59 - y

/-- The offset of the cell that holds the dot: (yt div 3) * 40 + (X div 2) (R105). -/
def dotOffset (x y : Nat) : Nat := flipY y / 3 * Config.charCols + x / 2

/-- The dot's bit in its cell: (yt mod 3) + (if X mod 2 == 1 then 3 else 0) (R103, R107). -/
def dotBit (x y : Nat) : Nat := flipY y % 3 + (if x % 2 = 1 then 3 else 0)

/-- The column of the dot that bit k of a cell shows (R111). -/
def dotColumn (offset k : Nat) : Nat := 2 * (offset % Config.charCols) + k / 3

/-- The row, from the bottom, of the dot that bit k of a cell shows (R111). -/
def dotRow (offset k : Nat) : Nat := 59 - (3 * (offset / Config.charCols) + k % 3)

/-! ### Cells (R26, R27, R103, R106, R108) -/

/-- DOT_TAG as bits (R8). -/
def tagBits : DotTag → BitVec 2
  | .tag10 => 0b10#2
  | .tag11 => 0b11#2

/-- Bit 0 of DOT_TAG; bit 1 is always set (R26). -/
def tagLow : DotTag → Bool
  | .tag10 => false
  | .tag11 => true

/-- DOT_TAG_BYTE = DOT_TAG << 6: a dot cell with all six dots clear (R8, R17). -/
def tagByte : DotTag → Byte
  | .tag10 => 0x80
  | .tag11 => 0xC0

/-- A byte is a dot-graphics cell when b[7:6] == DOT_TAG (R26). Bit 1 of DOT_TAG is 1 for both of its values, so bit 7 of
the byte decides first: codes 0..127 are always character cells. -/
def isDotCell (t : DotTag) (b : Byte) : Bool := b.getLsbD 7 && (b.getLsbD 6 == tagLow t)

/-- The cell PLOT works on: the byte itself if it is a dot cell, else DOT_TAG_BYTE (R103, R106). -/
def dotCellOf (t : DotTag) (b : Byte) : Byte := if isDotCell t b then b else tagByte t

/-- Set or clear bit k, the other seven bits kept (R103, R108). -/
def setDot (b : Byte) (k : Nat) (on : Bool) : Byte := if on then b ||| (1#8 <<< k) else b &&& ~~~(1#8 <<< k)

/-- The cell after a PLOT of bit k onto a cell that held b (R103). -/
def plottedCell (t : DotTag) (b : Byte) (k : Nat) (on : Bool) : Byte := setDot (dotCellOf t b) k on

/-- The bytes a PLOT writes to its cell, in order: DOT_TAG_BYTE first if the cell has to be converted, then the cell with
its dot set or cleared (R103, R106, R108, R110). -/
def plotWrites (t : DotTag) (b : Byte) (k : Nat) (on : Bool) : List Byte :=
  if isDotCell t b then [plottedCell t b k on] else [tagByte t, plottedCell t b k on]

end Sys2Proof.Machine
end

