-- ==== Sys2Proof/Machine/Refresh.lean ====
section
/-! DEFINITION. The refresh engine: one TICK (R131), which outputs one panel line and advances the scan state. A tick is one
atomic step (R63): its internal progress is never in State (R37). -/

namespace Sys2Proof.Machine

/-- R131 step 1c: the six events that output one glyph byte, high nibble first (R55, R58). -/
def columnEvents (g : Byte) : List BusEvent :=
  [.writeNibble (g.extractLsb' 4 4), .assertLine .cp, .releaseLine .cp,
   .writeNibble (g.extractLsb' 0 4), .assertLine .cp, .releaseLine .cp]

/-- R131 step 1 for one column: read the code at FRP + col (1a), read the glyph byte at GRB + code (1b), output it (1c).
A dot-graphics cell is looked up like any other code (R139). -/
def shiftColumn (col : Nat) (s : State) : Result :=
  match s.fb.read (s.frp.toNat + col) with
  | none => .fault (.unmappedFb (s.frp.toNat + col))
  | some code =>
    match romRead (s.grb.toNat + code.toNat) with
    | none => .fault (.unmappedRom (s.grb.toNat + code.toNat))
    | some g => .next (emitAll (columnEvents g) s)

/-- R131 step 1 over a list of columns, in order. -/
def shiftColumns : List Nat → State → Result
  | [], s => .next s
  | col :: rest, s => andThen (shiftColumn col s) (shiftColumns rest)

/-- R131 step 2: the line-load strobe. -/
def loadLine (s : State) : State := emitAll [.assertLine .lp, .releaseLine .lp] s

/-- R131 step 3: the next plane of the glyph ROM. -/
def nextPlane (s : State) : State := { s with grb := s.grb + 256 }

/-- R131 step 5, its inner part: all twelve lines of a character row are out; go to the next row, and at the end of the
frame back to the top with the frame marker asserted. -/
def nextRow (s : State) : State :=
  let s := { s with pr := 12, grb := 0, frp := s.frp + 40, cr := s.cr - 1 }
  if s.cr = 0 then { assertMarker { s with cr := 20 } with frp := 0 } else s

/-- R131 step 5: count one pixel row down. -/
def countLine (s : State) : State :=
  let s := { s with pr := s.pr - 1 }
  if s.pr = 0 then nextRow s else s

/-- R131 steps 2 to 5, after the shift phase, in order. -/
def finishLine (s : State) : State := countLine (releaseMarker (nextPlane (loadLine s)))

/-- R131: one tick, steps 1 to 5 in order. -/
def runTick (s : State) : Result :=
  andThen (shiftColumns (List.range Config.charCols) s) fun s => .next (finishLine s)

/-- TICK (R131): no operands, no fault of its own, no response, STATUS neither read nor written (R142, R144). -/
def execTick (s : State) : Result := runTick s

end Sys2Proof.Machine
end

