-- ==== Sys2Proof/Machine/Arbiter.lean ====
section
/-! DEFINITION. The framebuffer arbiter: a host command is a sequence of atomic framebuffer micro-operations (R110), and a
tick may be taken at any boundary between two of them, never inside one (R56, R64, R205). Which ticks are taken there is
data of the state: the turns (R62, R207; log 1, log 2). -/

namespace Sys2Proof.Machine

/-- One atomic framebuffer access of a host command (R17, R110). -/
inductive MicroOp where
  /-- R(a). Its value is used where the command reads it; the access itself has no effect (R57). -/
  | read (a : Nat)
  /-- W(a, v). -/
  | write (a : Nat) (v : Byte)
  deriving DecidableEq, Repr

/-- Do one micro-operation. -/
def runMicroOp : MicroOp → State → Result
  | .read a, s => if a < Config.fbSize then .next s else .fault (.unmappedFb a)
  | .write a v, s => fbWrite a v s

/-- A word on the timer port, taken between two micro-operations of a host command: TICK runs, and any other word is
ILLEGAL_COMMAND there, since the timer port accepts TICK only (R86, R90, R205). -/
def timerWord (w : Word) (s : State) : Result :=
  match decode .timer w with
  | .command _ => runTick s
  | .illegal _ => .next (raiseFault .illegalCommand s)

/-- The boundary between two micro-operations, over the turns that stand next: the Timer's words are taken until it is the
host's turn (R205, R206). Where no turn is left the host goes on. A reset turn waits until the command is complete (log 3).
-/
def boundaryOver : List Turn → State → Result
  | .timer w :: rest, s => andThen (timerWord w { s with turns := rest }) (boundaryOver rest)
  | .host :: rest, s => .next { s with turns := rest }
  | .reset :: rest, s => .next { s with turns := .reset :: rest }
  | [], s => .next { s with turns := [] }

/-- The boundary between two micro-operations of a host command. -/
def boundary (s : State) : Result := boundaryOver s.turns s

/-- Do micro-operations that are not the command's first: a boundary before each of them. -/
def runRest : List MicroOp → State → Result
  | [], s => .next s
  | op :: ops, s => andThen (boundary s) fun s => andThen (runMicroOp op s) (runRest ops)

/-- Do the micro-operations of a command in order, with a boundary between any two (R110). -/
def runMicroOps : List MicroOp → State → Result
  | [], s => .next s
  | op :: ops, s => andThen (runMicroOp op s) (runRest ops)

end Sys2Proof.Machine
end

