-- ==== Sys2Proof/Machine/Cell.lean ====
section
/-! DEFINITION. The cell codec's commands: WRCHAR, RDCELL and PLOT (R100 to R112). Each checks its operand range first and
raises its fault with no other effect (R202, R203), and otherwise does the micro-operations of R110. -/

namespace Sys2Proof.Machine

/-- WRCHAR ofs, code (R100): store the byte verbatim; OFFSET_RANGE when OFS >= 800. -/
def execWrchar (ofs : BitVec 10) (code : Byte) (s : State) : Result :=
  if offsetOperand ofs < Config.fbSize then runMicroOps [.write (offsetOperand ofs) code] s
  else .next (raiseFault .offsetRange s)

/-- RDCELL ofs (R102): respond with the raw byte; OFFSET_RANGE when OFS >= 800. -/
def execRdcell (ofs : BitVec 10) (s : State) : Result :=
  if offsetOperand ofs < Config.fbSize then
    andThen (runMicroOps [.read (offsetOperand ofs)] s) fun s => .next (respond (s.fb.get (offsetOperand ofs)) s)
  else .next (raiseFault .offsetRange s)

/-- PLOT's micro-operations for a cell at offset a that holds b (R110): read it, then the one or two writes of R103. -/
def plotMicroOps (t : DotTag) (a : Nat) (b : Byte) (k : Nat) (on : Bool) : List MicroOp :=
  .read a :: (plotWrites t b k on).map (.write a)

/-- PLOT x, y, on (R103): set or clear one dot of the canvas, converting a character cell first; PLOT_RANGE when X >= 80 or
Y >= 60. The bytes it writes are computed from the byte its first micro-operation reads. -/
def execPlot (x : BitVec 7) (y : BitVec 6) (on : Bool) (s : State) : Result :=
  if x.toNat < Config.dotCols ∧ y.toNat < Config.dotRows then
    runMicroOps
      (plotMicroOps Config.dotTag (dotOffset x.toNat y.toNat) (s.fb.get (dotOffset x.toNat y.toNat))
        (dotBit x.toNat y.toNat) on) s
  else .next (raiseFault .plotRange s)

end Sys2Proof.Machine
end

