-- ==== Sys2Proof/Machine/Dispatch.lean ====
section
/-! DEFINITION. The meaning of every command, one arm per constructor. -/

namespace Sys2Proof.Machine

def exec (i : Instr) (s : State) : Host.Outcome State Fault Refusal :=
  match i with
  | .wrchar ofs code => Sys2Proof.Machine.execWrchar ofs code s
  | .rdcell ofs => Sys2Proof.Machine.execRdcell ofs s
  | .plot x y on => Sys2Proof.Machine.execPlot x y on s
  | .tick => Sys2Proof.Machine.execTick s

end Sys2Proof.Machine
end

