-- ==== Sys2Proof/Machine/Expander.lean ====
section
/-! DEFINITION. The text and shape pseudo-operations: how the host expands each into WRCHAR commands, and when it refuses
(R170 to R177, D12, D13, D32). They reach the block only as the framebuffer writes they cause (R5). -/

namespace Sys2Proof.Machine

/-- What expanding a pseudo-operation gives: CURSOR afterwards, and the commands in the order they are issued. -/
structure Expansion where
  cursor : Option Nat
  commands : List Instr
  deriving DecidableEq, Repr

/-- WRCHAR a, b for an offset given as a number. -/
def storeAt (a : Nat) (b : Byte) : Instr := .wrchar (BitVec.ofNat 10 a) b

/-- SETCUR row, col (R171): CURSOR becomes row*40 + col and no command is issued; operands outside 0..19 and 0..39 are
refused. -/
def expandSetcur (row col : Nat) : Option Expansion :=
  if row < Config.charRows ∧ col < Config.charCols then some ⟨some (row * Config.charCols + col), []⟩ else none

/-- PUTC b (R172): store b at CURSOR and advance it; refused while CURSOR is undefined or at 800 or beyond. -/
def expandPutc (b : Byte) (cursor : Option Nat) : Option Expansion :=
  match cursor with
  | none => none
  | some c => if c < Config.fbSize then some ⟨some (c + 1), [storeAt c b]⟩ else none

/-- PUTS s (R173): a PUTC for each byte before the terminating zero; refused as a whole, with nothing issued, if one of
them is refused. -/
def expandPuts : List Byte → Option Nat → Option Expansion
  | [], cursor => some ⟨cursor, []⟩
  | b :: rest, cursor =>
    if b = 0 then some ⟨cursor, []⟩
    else
      match expandPutc b cursor with
      | none => none
      | some first =>
        match expandPuts rest first.cursor with
        | none => none
        | some others => some ⟨others.cursor, first.commands ++ others.commands⟩

/-- off(i, j) = i*40 + j (R10, R175). -/
def cellOffset (row col : Nat) : Nat := row * Config.charCols + col

/-- The inner part of a horizontal edge: BOX_H at columns c+1 .. c+w-2 of a row, ascending (R175). -/
def horizontalEdge (row c w : Nat) : List Instr :=
  (List.range (w - 2)).map fun j => storeAt (cellOffset row (c + 1 + j)) Config.boxH

/-- The inner part of a vertical edge: BOX_V at rows r+1 .. r+h-2 of a column, ascending (R175). -/
def verticalEdge (r h col : Nat) : List Instr :=
  (List.range (h - 2)).map fun i => storeAt (cellOffset (r + 1 + i) col) Config.boxV

/-- The commands of a DRAWBOX, in the order of R175. -/
def boxCommands (r c w h : Nat) : List Instr :=
  [storeAt (cellOffset r c) Config.boxUL] ++
  horizontalEdge r c w ++
  [storeAt (cellOffset r (c + w - 1)) Config.boxUR] ++
  verticalEdge r h (c + w - 1) ++
  [storeAt (cellOffset (r + h - 1) (c + w - 1)) Config.boxLR] ++
  verticalEdge r h c ++
  [storeAt (cellOffset (r + h - 1) c) Config.boxLL] ++
  horizontalEdge (r + h - 1) c w

/-- DRAWBOX row, col, width, height (R174, R176): accepted only when width and height are at least 2 and the box lies inside
the framebuffer. CURSOR is not touched. -/
def expandDrawbox (r c w h : Nat) (cursor : Option Nat) : Option Expansion :=
  if 2 ≤ w ∧ 2 ≤ h ∧ r + h ≤ Config.charRows ∧ c + w ≤ Config.charCols then some ⟨cursor, boxCommands r c w h⟩ else none

/-- Expand a pseudo-operation, or refuse it (R170 to R177). -/
def expand (p : PseudoOp) (cursor : Option Nat) : Option Expansion :=
  match p with
  | .setcur row col => expandSetcur row col
  | .putc b => expandPutc b cursor
  | .puts s => expandPuts s cursor
  | .drawbox r c w h => expandDrawbox r c w h cursor

/-- The host expands a pseudo-operation and puts the words of its commands before what it had still to issue. A refused one
issues nothing, keeps CURSOR, and is recorded (R176, D13; log 11). No block state changes (R5). -/
def runPseudo (p : PseudoOp) (rest : List HostItem) (s : State) : State :=
  match expand p s.cursor with
  | some e => { s with cursor := e.cursor, hostPort := e.commands.map (fun i => .command (encode i)) ++ rest }
  | none => { s with hostPort := rest, refusedOps := s.refusedOps ++ [p] }

end Sys2Proof.Machine
end

