-- ==== Sys2Proof/Machine/Step.lean ====
section
/-! DEFINITION. One step of the machine: the agent whose turn it is makes its next move (R15, R62).

A host command runs in one step, with the ticks that fall at its inner boundaries inside that step (log 1). A word on the
timer port, a RESET, and the expansion of a pseudo-operation are each one step. -/

namespace Sys2Proof.Machine

/-- Decode a word on its port and run it; a word that does not decode is the fault ILLEGAL_COMMAND (R86, R201, R203). -/
def portWord (p : Port) (w : Word) (s : State) : Result :=
  match decode p w with
  | .command i => exec i s
  | .illegal _ => .next (raiseFault .illegalCommand s)

/-- The host moves: it issues its next word, or expands its next pseudo-operation, or has nothing to issue. A word uses up
the host's turn; an expansion is no event of R62 and uses up none (log 17). -/
def hostMove (s : State) : Result :=
  match s.hostPort with
  | .command w :: rest => portWord .host w { s with hostPort := rest, turns := s.turns.tail }
  | .pseudo p :: rest => .next (runPseudo p rest s)
  | [] => .next { s with turns := s.turns.tail }

/-- One step (R62). -/
def step (s : State) : Host.Outcome State Fault Refusal :=
  match s.turns with
  | .timer w :: rest => portWord .timer w { s with turns := rest }
  | .reset :: rest => .next (applyReset { s with turns := rest })
  | .host :: _ => hostMove s
  | [] => hostMove s

/-- The state in which an opcode-table word is the next one presented, on the port the table gives it: at the head of the
host's words with the host's turn next, or as the Timer's next turn (log 4). -/
def State.withFetchWord (s : State) (nbits w : Nat) : State :=
  match tablePort (tableWord nbits w) with
  | .host => { s with hostPort := .command (tableWord nbits w) :: s.hostPort, turns := .host :: s.turns }
  | .timer => { s with turns := .timer (tableWord nbits w) :: s.turns }

end Sys2Proof.Machine
end

