-- ==== Sys2Proof/Machine/Assembler.lean ====
section
/-! DEFINITION. The assembler of R91: one command per line, numbers decimal or 0x hexadecimal, a character literal for its
code. It refuses an operand that does not fit its field, and accepts one that fits but is outside the legal range. The
pseudo-operations of R170 to R177 are lines too (log 18). -/

namespace Sys2Proof.Machine

/-- A source line with its operands as numbers (R91, R171 to R174). -/
inductive AsmLine where
  | wrchar (ofs code : Nat)
  | rdcell (ofs : Nat)
  | plot (x y on : Nat)
  | tick
  | setcur (row col : Nat)
  | putc (b : Nat)
  | puts (s : List Nat)
  | drawbox (row col width height : Nat)
  deriving DecidableEq, Repr

/-- What a line assembles to: a command, or a pseudo-operation for the expander. -/
inductive Assembled where
  | command (i : Instr)
  | pseudo (p : PseudoOp)
  deriving DecidableEq, Repr

/-- Assemble a line; an operand that does not fit its field is refused (R91). The expander, not the assembler, judges the
operands of SETCUR and DRAWBOX (R171, R176). -/
def assemble : AsmLine → Option Assembled
  | .wrchar ofs code =>
    if ofs < 1024 ∧ code < 256 then some (.command (.wrchar (BitVec.ofNat 10 ofs) (BitVec.ofNat 8 code))) else none
  | .rdcell ofs => if ofs < 1024 then some (.command (.rdcell (BitVec.ofNat 10 ofs))) else none
  | .plot x y on =>
    if x < 128 ∧ y < 64 ∧ on < 2 then
      some (.command (.plot (BitVec.ofNat 7 x) (BitVec.ofNat 6 y) (decide (on = 1))))
    else none
  | .tick => some (.command .tick)
  | .setcur row col => some (.pseudo (.setcur row col))
  | .putc b => if b < 256 then some (.pseudo (.putc (BitVec.ofNat 8 b))) else none
  | .puts s => if s.all (fun b => decide (b < 256)) then some (.pseudo (.puts (s.map (BitVec.ofNat 8)))) else none
  | .drawbox r c w h => some (.pseudo (.drawbox r c w h))

/-! ### The text of a line (R91, log 18) -/

/-- The text after its leading spaces. -/
def skipSpaces (cs : List Char) : List Char := cs.dropWhile (fun c => decide (c = ' '))

/-- The value of a digit: decimal, or a hexadecimal letter of either case. -/
def digitValue (c : Char) : Option Nat :=
  let n := c.toNat
  if 48 ≤ n ∧ n ≤ 57 then some (n - 48)
  else if 65 ≤ n ∧ n ≤ 70 then some (n - 55)
  else if 97 ≤ n ∧ n ≤ 102 then some (n - 87)
  else none

/-- Read digits of a base from the front of a text, onto the value read so far; seen says whether a digit has been read. -/
def readDigits (base : Nat) : List Char → Nat → Bool → Option (Nat × List Char)
  | [], acc, seen => if seen then some (acc, []) else none
  | c :: cs, acc, seen =>
    match digitValue c with
    | some d => if d < base then readDigits base cs (acc * base + d) true else none
    | none => if seen then some (acc, c :: cs) else none

/-- Read one operand: a character literal for its code, a 0x hexadecimal number, or a decimal number (R91). -/
def readOperand : List Char → Option (Nat × List Char)
  | '\'' :: c :: '\'' :: rest => some (c.toNat, rest)
  | '0' :: 'x' :: rest => readDigits 16 rest 0 false
  | cs => readDigits 10 cs 0 false

/-- Read a number of operands separated by commas, up to the end of the line. -/
def readOperands : Nat → List Char → Option (List Nat)
  | 0, cs => if skipSpaces cs = [] then some [] else none
  | 1, cs =>
    match readOperand (skipSpaces cs) with
    | some (v, rest) => if skipSpaces rest = [] then some [v] else none
    | none => none
  | n + 2, cs =>
    match readOperand (skipSpaces cs) with
    | some (v, rest) =>
      match skipSpaces rest with
      | ',' :: rest => (readOperands (n + 1) rest).map (v :: ·)
      | _ => none
    | none => none

/-- Read the codes of a string up to its closing double quote, which ends the line (R173). -/
def readString : List Char → Option (List Nat)
  | [] => none
  | c :: cs =>
    if c = Char.ofNat 34 then (if skipSpaces cs = [] then some [] else none)
    else (readString cs).map (c.toNat :: ·)

/-- Read a line: a mnemonic and its operands (R91). -/
def parseLine (cs : List Char) : Option AsmLine :=
  let cs := skipSpaces cs
  let mnemonic := cs.takeWhile (fun c => !decide (c = ' '))
  let rest := cs.dropWhile (fun c => !decide (c = ' '))
  if mnemonic = ['W', 'R', 'C', 'H', 'A', 'R'] then
    match readOperands 2 rest with | some [a, b] => some (.wrchar a b) | _ => none
  else if mnemonic = ['R', 'D', 'C', 'E', 'L', 'L'] then
    match readOperands 1 rest with | some [a] => some (.rdcell a) | _ => none
  else if mnemonic = ['P', 'L', 'O', 'T'] then
    match readOperands 3 rest with | some [a, b, c] => some (.plot a b c) | _ => none
  else if mnemonic = ['T', 'I', 'C', 'K'] then
    match readOperands 0 rest with | some [] => some .tick | _ => none
  else if mnemonic = ['S', 'E', 'T', 'C', 'U', 'R'] then
    match readOperands 2 rest with | some [a, b] => some (.setcur a b) | _ => none
  else if mnemonic = ['P', 'U', 'T', 'C'] then
    match readOperands 1 rest with | some [a] => some (.putc a) | _ => none
  else if mnemonic = ['P', 'U', 'T', 'S'] then
    match skipSpaces rest with
    | q :: text => if q = Char.ofNat 34 then (readString text).map .puts else none
    | [] => none
  else if mnemonic = ['D', 'R', 'A', 'W', 'B', 'O', 'X'] then
    match readOperands 4 rest with | some [a, b, c, d] => some (.drawbox a b c d) | _ => none
  else none

/-- Assemble the text of a line (R91). -/
def assembleText (cs : List Char) : Option Assembled := (parseLine cs).bind assemble

end Sys2Proof.Machine
end

