-- ==== Sys2Proof/Machine/Observer.lean ====
section
/-! DEFINITION. Observers, for stating claims; none of them is part of the block: the line image of a piece of trace (R145),
the position of the scan (R28, R29, R136), the electrical level of a line (R35), and the lines as a trace leaves them
(R130). -/

namespace Sys2Proof.Machine

/-- The nibbles of a trace's WriteNibble events, in order (R145). -/
def nibblesOf : List BusEvent → List Nibble
  | [] => []
  | .writeNibble v :: es => v :: nibblesOf es
  | .assertLine _ :: es => nibblesOf es
  | .releaseLine _ :: es => nibblesOf es

/-- The bits of a nibble, most significant first (R145). -/
def nibbleBits (v : Nibble) : List Bool := [v.getLsbD 3, v.getLsbD 2, v.getLsbD 1, v.getLsbD 0]

/-- The line image as bits: nibble n_j is bits 4j .. 4j+3, most significant bit first (R145). -/
def lineBits (es : List BusEvent) : List Bool := (nibblesOf es).flatMap nibbleBits

/-- The plane the next tick outputs is 12 - PR (R28). -/
def State.plane (s : State) : Nat := 12 - s.pr.toNat

/-- The character row the next tick outputs is 20 - CR (R29). -/
def State.charRow (s : State) : Nat := 20 - s.cr.toNat

/-- The line of the frame the next tick outputs: pixel row L mod 12 of character row L div 12 (R17, R136). -/
def State.line (s : State) : Nat := s.charRow * 12 + s.plane

/-- Whether an event asserts the frame marker (R137). -/
def isFrameMarker (e : BusEvent) : Bool := decide (e = .assertLine .flm)

/-- The number of ticks a trace holds: each tick pulses LP once (R132). -/
def ticksIn (es : List BusEvent) : Nat := es.countP fun e => decide (e = .assertLine .lp)

/-- The state with its lines driven by a list of events, its trace untouched (R130). -/
def driveAll (es : List BusEvent) (s : State) : State := es.foldl (fun s e => driveLines e s) s

/-- The logical state of a line (R35). -/
def State.lineState (s : State) : Line → Bool
  | .cp => s.cp
  | .lp => s.lp
  | .flm => s.flm

/-- LINE_POLARITY of a line (R8, D18). -/
def polarityOf : Line → Polarity
  | .cp => Config.cpPolarity
  | .lp => Config.lpPolarity
  | .flm => Config.flmPolarity

/-- The electrical level of a line: its logical state under its polarity (R35, D18). -/
def State.lineLevel (s : State) (l : Line) : Bool :=
  match polarityOf l with
  | .activeHigh => s.lineState l
  | .activeLow => !s.lineState l

end Sys2Proof.Machine
end

