-- ==== Sys2Proof/Safety.lean ====
section
/-! DEFINITION. What a good state is, and runs of commands, in the terms the statements use. -/

namespace Sys2Proof.Machine

/-! ### The invariant -/

/-- The scan registers stand at the boundary of some line of the frame (R28 to R32, R135): PR in 1..12, CR in 1..20, GRB the
plane's base, FRP the row's offset, and the frame marker asserted at line 0 only. -/
abbrev State.ScanOk (s : State) : Prop :=
  (1 ≤ s.pr.toNat ∧ s.pr.toNat ≤ 12) ∧ (1 ≤ s.cr.toNat ∧ s.cr.toNat ≤ 20) ∧
  s.grb.toNat = s.plane * 256 ∧ s.frp.toNat = s.charRow * 40 ∧ (s.flm = true → s.line = 0)

/-- The strobes are released between two steps (R131, R132: each Assert of CP and LP is followed by its Release). -/
abbrev State.StrobesIdle (s : State) : Prop := s.cp = false ∧ s.lp = false

/-- FAULTED says whether a cause is recorded (R33, R201). -/
abbrev State.StatusOk (s : State) : Prop := s.faulted = false ↔ s.cause = .noFault

/-- CURSOR is undefined or at most 800: SETCUR and PUTC give it no other value (R171, R172). -/
abbrev State.CursorOk (s : State) : Prop := ∀ c, s.cursor = some c → c ≤ 800

/-- The invariant of the machine. -/
structure State.Inv (s : State) : Prop where
  /-- The framebuffer is in canonical form, so it lists offsets 0..799 only (R25, log 8). -/
  fb : s.fb.wf = true
  scan : s.ScanOk
  strobes : s.StrobesIdle
  status : s.StatusOk
  cursor : s.CursorOk

/-- The scan state stands at line L of a frame: what R135 gives PR, CR, GRB and FRP for that L. -/
abbrev State.AtLine (s : State) (L : Nat) : Prop :=
  s.pr.toNat = 12 - L % 12 ∧ s.cr.toNat = 20 - L / 12 ∧ s.grb.toNat = L % 12 * 256 ∧ s.frp.toNat = L / 12 * 40

/-- A state of a run of which claims may be made: no fault has been recorded (R202). -/
abbrev State.Good (s : State) : Prop := s.faulted = false

/-! ### Runs -/

/-- The commands of a list, one after the other, with no turn between them. -/
def execAll : List Instr → State → Result
  | [], s => .next s
  | i :: is, s => andThen (exec i s) (execAll is)

/-- A number of ticks, one after the other. -/
def ticks (k : Nat) (s : State) : Result := execAll (List.replicate k .tick) s

/-- The lines of the output bus, as the trace determines them: the trace replayed from released lines and some level of DOUT,
which R35 leaves unspecified at RESET (R130, R35). -/
abbrev State.LinesFollowTrace (s : State) : Prop :=
  ∃ d : Nibble, let t := driveAll s.trace { State.reset with dout := d }
    s.dout = t.dout ∧ s.cp = t.cp ∧ s.lp = t.lp ∧ s.flm = t.flm

/-- The scan state as R135 gives it for the number of ticks in the trace, which is the number since RESET. -/
abbrev State.ScanFollowsTrace (s : State) : Prop :=
  s.AtLine (ticksIn s.trace % 240) ∧ (s.flm = true ↔ 240 ≤ ticksIn s.trace ∧ ticksIn s.trace % 240 = 0)

end Sys2Proof.Machine
end

