-- ==== Sys2Proof/WellFormed.lean ====
section
/-! DEFINITION. Which operands of a command are legal (R92).

Every Instr has an encoding, since each operand has the width of its field. What can be wrong with one is an operand
outside its legal range: such a command still decodes, and faults when it is executed (R92, R203). A statement that
needs the legal range says so; the encoding statements hold for every Instr. -/

namespace Sys2Proof

/-- An offset names a byte of the framebuffer: 0..799 (R81, R82, R51). -/
def legalOffset (ofs : BitVec 10) : Bool := decide (ofs.toNat < Config.fbSize)

/-- A dot lies on the 80×60 canvas (R12, R83). -/
def legalDot (x : BitVec 7) (y : BitVec 6) : Bool :=
  decide (x.toNat < Config.dotCols) && decide (y.toNat < Config.dotRows)

/-- Every operand of the command is in its legal range (R92). -/
def Instr.WellFormed : Instr → Bool
  | .wrchar ofs _ => legalOffset ofs
  | .rdcell ofs => legalOffset ofs
  | .plot x y _ => legalDot x y
  | .tick => true

end Sys2Proof
end

