-- ==== Sys2Proof/Certificates/Slice0/Obligations.lean ====
section
/-! DEFINITION. The statements about the model, for the provers.

Where a statement rests on a choice of the model's own or on a rule the spec marks as derived, its docstring says so and
names the log entry (notes/assumptions) or the rule. A word on the timer port is written 0x80000000 for TICK (R84). -/

open Sys2Proof Sys2Proof.Machine

namespace Sys2Proof.Statements

/-- The state after raise Fault(c), as R202 gives it: STATUS records the first cause, everything else is unchanged. -/
abbrev faultRecorded (c : Cause) (s : State) : State :=
  { s with faulted := true, cause := if s.faulted = true then s.cause else c }

/-- The offset of a dot's cell, as R104 and R105 compute it. -/
abbrev cellOf (x : BitVec 7) (y : BitVec 6) : Nat := (59 - y.toNat) / 3 * 40 + x.toNat / 2

/-- A dot's bit, as R104 and R107 compute it. -/
abbrev bitOf (x : BitVec 7) (y : BitVec 6) : Nat := (59 - y.toNat) % 3 + 3 * (x.toNat % 2)

/-- DOT_TAG_BYTE = DOT_TAG << 6 (R8). -/
abbrev dotTagByte : Byte := (tagBits Config.dotTag).setWidth 8 <<< 6

/-- b[7:6] == DOT_TAG (R26). -/
abbrev hasDotTag (b : Byte) : Prop := b.extractLsb' 6 2 = tagBits Config.dotTag

/-- The cell PLOT leaves where it found b (R103). -/
abbrev cellAfterPlot (b : Byte) (k : Nat) (on : Bool) : Byte :=
  let b' := if hasDotTag b then b else dotTagByte
  if on then b' ||| 1#8 <<< k else b' &&& ~~~(1#8 <<< k)

/-- The six events of one glyph byte: each nibble (g[7:4], then g[3:0]) written and then loaded by a CP pulse, high nibble first (R131 step 1c). -/
abbrev glyphEvents (g : Byte) : List BusEvent :=
  [.writeNibble (g.extractLsb' 4 4), .assertLine .cp, .releaseLine .cp,
   .writeNibble (g.extractLsb' 0 4), .assertLine .cp, .releaseLine .cp]

/-- The bits of a byte, most significant first (R145). -/
abbrev byteBits (g : Byte) : List Bool := (List.range 8).map fun j => g.getLsbD (7 - j)

/-- The WRCHAR of a DRAWBOX expansion: an offset and a code. -/
abbrev storeOf (p : Nat × Byte) : Instr := .wrchar (BitVec.ofNat 10 p.1) p.2

end Sys2Proof.Statements

open Sys2Proof.Statements

/-! ### Encoding (30_encoding.md) -/

/-- Written-out words decode as the spec's encodings (R81 to R84, R90) say. Five stand in the table of 95_test_vectors.md
2.1; 0x304F0000, PLOT 79, 0, 0, is laid out from R83 (the table has its ON = 1 word). -/
def Obligations.WrittenOutWordsDecodeAsTheSpecSays : Prop :=
  decode .host 0x10000041 = .command (.wrchar 0 0x41) ∧
  decode .host 0x131F00FF = .command (.wrchar 799 0xFF) ∧
  decode .host 0x20050000 = .command (.rdcell 5) ∧
  decode .host 0x30003B01 = .command (.plot 0 59 true) ∧
  decode .host 0x304F0000 = .command (.plot 79 0 false) ∧
  decode .timer 0x80000000 = .command .tick

/-- Decode and encode agree for every command, legal operands or not (R81 to R84, R86, R92); the other port refuses the
command's word (R90). -/
def Obligations.DecodeOfEncodeIsTheCommand : Prop :=
  ∀ i : Instr, decode i.port (encode i) = .command i ∧
    ∀ p, p ≠ i.port → decode p (encode i) = .illegal .wrongPort

/-- A word that decodes has one meaning: the command's encoding is that word, and it came to the command's port (R86). -/
def Obligations.DecodedWordIsTheCommandsEncoding : Prop :=
  ∀ (p : Port) (w : Word) (i : Instr), decode p w = .command i → encode i = w ∧ i.port = p

/-- A word is a command exactly when it matches a row of the opcode table under the row's mask, on the row's port (R86,
R87, R88, R90, with the match and mask values of R100, R102, R103 and R84). -/
def Obligations.DecodeAcceptsExactlyTheTableRows : Prop :=
  ∀ (p : Port) (w : Word), (∃ i, decode p w = .command i) ↔
    (p = .host ∧ (w &&& 0xFC00FF00 = 0x10000000 ∨ w &&& 0xFC00FFFF = 0x20000000 ∨ w &&& 0xFF80C0FE = 0x30000000)) ∨
    (p = .timer ∧ w = 0x80000000)

/-- R85: every operand is the unsigned value of its field: OFS = w[25:16], CODE = w[7:0], X = w[22:16], Y = w[13:8] and
ON = w[0]. -/
def Obligations.OperandsAreTheUnsignedFieldsOfTheWord : Prop :=
  ∀ (p : Port) (w : Word),
    (∀ ofs code, decode p w = .command (.wrchar ofs code) →
      ofs.toNat = w.toNat / 2 ^ 16 % 2 ^ 10 ∧ code.toNat = w.toNat % 2 ^ 8) ∧
    (∀ ofs, decode p w = .command (.rdcell ofs) → ofs.toNat = w.toNat / 2 ^ 16 % 2 ^ 10) ∧
    (∀ x y on, decode p w = .command (.plot x y on) →
      x.toNat = w.toNat / 2 ^ 16 % 2 ^ 7 ∧ y.toNat = w.toNat / 2 ^ 8 % 2 ^ 6 ∧ on.toNat = w.toNat % 2)

/-- R87: the opcode map over OP = w[31:28]. A reserved OP is ILLEGAL_COMMAND on either port, and each other OP decodes to
its own operation or to nothing. -/
def Obligations.OpFieldSelectsTheOperation : Prop :=
  ∀ (p : Port) (w : Word),
    let op := w.toNat / 2 ^ 28
    (op = 0 ∨ (4 ≤ op ∧ op ≤ 7) ∨ 9 ≤ op → ∃ why, decode p w = .illegal why) ∧
    (∀ i, decode p w = .command i →
      (op = 1 ∧ ∃ ofs code, i = .wrchar ofs code) ∨ (op = 2 ∧ ∃ ofs, i = .rdcell ofs) ∨
      (op = 3 ∧ ∃ x y on, i = .plot x y on) ∨ (op = 8 ∧ i = .tick))

/-- R88: a word with a bit set that R81 to R84 mark "reserved, must be zero" is ILLEGAL_COMMAND, on either port. -/
def Obligations.SetReservedBitIsIllegal : Prop :=
  ∀ (p : Port) (w : Word),
    (w &&& 0xF0000000 = 0x10000000 ∧ w &&& 0x0C00FF00 ≠ 0) ∨ (w &&& 0xF0000000 = 0x20000000 ∧ w &&& 0x0C00FFFF ≠ 0) ∨
    (w &&& 0xF0000000 = 0x30000000 ∧ w &&& 0x0F80C0FE ≠ 0) ∨ (w &&& 0xF0000000 = 0x80000000 ∧ w &&& 0x0FFFFFFF ≠ 0) →
    ∃ why, decode p w = .illegal why

/-- R90: TICK is accepted on the timer port only, and WRCHAR, RDCELL and PLOT on the host port only; a word that decodes to
an operation of the other port is ILLEGAL_COMMAND. -/
def Obligations.EachPortAcceptsItsOwnOperations : Prop :=
  ∀ w : Word,
    (∀ i, decode .timer w = .command i → i = .tick ∧ ∃ why, decode .host w = .illegal why) ∧
    (∀ i, decode .host w = .command i → i ≠ .tick ∧ ∃ why, decode .timer w = .illegal why)

/-- The only TICK word is 0x80000000 (R84), and only on the timer port (R90). -/
def Obligations.OnlyTickWordIsTheTableOne : Prop :=
  ∀ (p : Port) (w : Word), decode p w = .command .tick ↔ p = .timer ∧ w = 0x80000000

/-- R92: OFS values 800..1023 decode to WRCHAR or RDCELL and raise OFFSET_RANGE when executed; X values 80..127 or Y values
60..63 decode to PLOT and raise PLOT_RANGE. Neither is ILLEGAL_COMMAND. -/
def Obligations.OutOfRangeOperandDecodesAndFaultsWhenExecuted : Prop :=
  ∀ s : State, s.faulted = false →
    (∀ (ofs : BitVec 10) (code : Byte), 800 ≤ ofs.toNat →
      decode .host (encode (.wrchar ofs code)) = .command (.wrchar ofs code) ∧
      (∃ t, exec (.wrchar ofs code) s = .next t ∧ t.faulted = true ∧ t.cause = .offsetRange) ∧
      decode .host (encode (.rdcell ofs)) = .command (.rdcell ofs) ∧
      ∃ t, exec (.rdcell ofs) s = .next t ∧ t.faulted = true ∧ t.cause = .offsetRange) ∧
    (∀ (x : BitVec 7) (y : BitVec 6) (on : Bool), 80 ≤ x.toNat ∨ 60 ≤ y.toNat →
      decode .host (encode (.plot x y on)) = .command (.plot x y on) ∧
      ∃ t, exec (.plot x y on) s = .next t ∧ t.faulted = true ∧ t.cause = .plotRange)

/-! ### Steps (R15, R62, R86, R201, R204 to R207); the turns are the model's own form of R62's order (log 1, log 2) -/

/-- On the host's turn, or with no turn left, a step runs the command the host's next word decodes to, with the word taken
and the turn used up (R62, R80, R86; the turns are the model's choice, log 2). -/
def Obligations.StepRunsTheHostsNextCommand : Prop :=
  ∀ (s : State) (w : Word) (rest : List HostItem) (i : Instr),
    (s.turns = [] ∨ s.turns.head? = some .host) → s.hostPort = .command w :: rest → decode .host w = .command i →
    step s = exec i { s with hostPort := rest, turns := s.turns.tail }

/-- On a turn of the Timer a step runs the command the Timer's word decodes to, with the turn used up (R90, R205; the turns
are the model's choice, log 2). -/
def Obligations.StepRunsTheTimersCommand : Prop :=
  ∀ (s : State) (w : Word) (rest : List Turn) (i : Instr),
    s.turns = .timer w :: rest → decode .timer w = .command i → step s = exec i { s with turns := rest }

/-- A word that does not decode, on either port, records ILLEGAL_COMMAND and does nothing else (R86, R201, R202); decode comes
before every other check (R203). That a step takes the word from the host's queue or from the turn, that it uses the turn up,
and that an empty list of turns is the host's turn are the model's choices (log 1, log 2). -/
def Obligations.StepRecordsIllegalCommand : Prop :=
  ∀ (s : State) (w : Word) (why : Illegal),
    (∀ rest, (s.turns = [] ∨ s.turns.head? = some .host) → s.hostPort = .command w :: rest →
      decode .host w = .illegal why →
      step s = .next (faultRecorded .illegalCommand { s with hostPort := rest, turns := s.turns.tail })) ∧
    (∀ rest, s.turns = .timer w :: rest → decode .timer w = .illegal why →
      step s = .next (faultRecorded .illegalCommand { s with turns := rest }))

/-- The host expands its next pseudo-operation in a step of its own: CURSOR moves, and the words of the expansion stand
before what it had still to issue; a refused one issues nothing and keeps CURSOR (R5, R171 to R176). That the host then goes
on, that the refusal is recorded and that no turn is used up are the model's choices (log 11, log 17). -/
def Obligations.StepExpandsTheHostsPseudoOperation : Prop :=
  ∀ (s : State) (p : PseudoOp) (rest : List HostItem),
    (s.turns = [] ∨ s.turns.head? = some .host) → s.hostPort = .pseudo p :: rest →
    (∀ e, expand p s.cursor = some e →
      step s = .next { s with
        cursor := e.cursor, hostPort := e.commands.map (fun i => .command (encode i)) ++ rest }) ∧
    (expand p s.cursor = none →
      step s = .next { s with hostPort := rest, refusedOps := s.refusedOps ++ [p] })

/-- RESET, applied from any state (R230): the framebuffer is blank, the scan state, the strobes and STATUS have the values
R230 R230 lists, and the trace is empty. R230 leaves DOUT unspecified, and so does this. The premise says that it is the reset
input's turn (log 2). -/
def Obligations.ResetSetsEveryPieceOfState : Prop :=
  ∀ (s : State) (rest : List Turn), s.turns = .reset :: rest →
    ∃ t, step s = .next t ∧ (∀ a, a < 800 → t.fb.read a = some Config.blankCode) ∧
      t.pr = 12 ∧ t.cr = 20 ∧ t.grb = 0 ∧ t.frp = 0 ∧ t.flm = false ∧ t.cp = false ∧ t.lp = false ∧
      t.faulted = false ∧ t.cause = .noFault ∧ t.trace = []

/-- At a boundary inside a command the Timer's word does there what a step of its own does between two commands, stopping
included, and the boundary goes on from there (R205). It ends where the host's turn stands next, with that turn used up and
nothing else changed: the host's next micro-operation proceeds (R206). That the order is a list of turns, that the host goes
where it is empty, and that a RESET waits until the command is complete are the model's choices (log 1, log 2, log 3). -/
def Obligations.BoundaryTakesTheTimersWords : Prop :=
  ∀ (s : State) (rest : List Turn),
    (∀ w, s.turns = .timer w :: rest → boundary s = andThen (step s) boundary) ∧
    (s.turns = .host :: rest → boundary s = .next { s with turns := rest }) ∧
    (s.turns = [] → boundary s = .next s) ∧
    (s.turns = .reset :: rest → boundary s = .next s)

/-! ### WRCHAR and RDCELL (R100 to R102) -/

/-- R100: WRCHAR stores its byte verbatim at its offset and changes nothing else; OFS >= 800 is OFFSET_RANGE; its word has
match 0x10000000 under mask 0xFC00FF00. The canonical form of the framebuffer is the model's (log 8). -/
def Obligations.WrcharStoresItsByteVerbatim : Prop :=
  ∀ (ofs : BitVec 10) (code : Byte) (s : State),
    encode (.wrchar ofs code) &&& 0xFC00FF00 = 0x10000000 ∧
    (ofs.toNat < 800 → s.fb.wf = true →
      ∃ t, exec (.wrchar ofs code) s = .next t ∧ t.fb.read ofs.toNat = some code ∧
        (∀ a, a ≠ ofs.toNat → t.fb.read a = s.fb.read a) ∧ t = { s with fb := t.fb }) ∧
    (800 ≤ ofs.toNat → exec (.wrchar ofs code) s = .next (faultRecorded .offsetRange s))

/-- R102: RDCELL responds the raw framebuffer byte at its offset and changes nothing else; OFS >= 800 is OFFSET_RANGE, with
no response; its word has match 0x20000000 under mask 0xFC00FFFF. -/
def Obligations.RdcellRespondsTheRawByte : Prop :=
  ∀ (ofs : BitVec 10) (s : State),
    encode (.rdcell ofs) &&& 0xFC00FFFF = 0x20000000 ∧
    (ofs.toNat < 800 →
      ∃ b, s.fb.read ofs.toNat = some b ∧
        exec (.rdcell ofs) s = .next { s with responses := s.responses ++ [b] }) ∧
    (800 ≤ ofs.toNat → exec (.rdcell ofs) s = .next (faultRecorded .offsetRange s))

/-- Two identical WRCHARs leave the same state as one (R101 item 3, R57; R57 is a derived rule). -/
def Obligations.RepeatedWrcharIsOneWrchar : Prop :=
  ∀ (ofs : BitVec 10) (code : Byte) (s : State), s.fb.wf = true →
    execAll [.wrchar ofs code, .wrchar ofs code] s = exec (.wrchar ofs code) s

/-- A RDCELL sees every earlier host write: after a WRCHAR it responds the new byte at that offset and the old byte at every
other (R62, R102; R241 is a derived rule). -/
def Obligations.RdcellSeesTheLastWrite : Prop :=
  ∀ (a b : BitVec 10) (code : Byte) (s : State), a.toNat < 800 → b.toNat < 800 → s.fb.wf = true →
    ∃ t v, execAll [.wrchar a code, .rdcell b] s = .next t ∧ s.fb.read b.toNat = some v ∧
      t.responses = s.responses ++ [if b = a then code else v]

/-! ### PLOT (R103 to R111) -/

/-- R103: PLOT sets or clears bit k of the cell at ofs, with the conversion write first where the cell has no DOT_TAG, both
writes and the read being micro-operations in that order; X >= 80 or Y >= 60 is PLOT_RANGE. Every other byte of the
framebuffer, the responses and the host's state are unchanged, whatever ticks are taken at its boundaries. Its word has
match 0x30000000 under mask 0xFF80C0FE. The premises hold in every state the machine reaches (StepKeepsTheInvariant). -/
def Obligations.PlotSetsOrClearsItsDot : Prop :=
  ∀ (x : BitVec 7) (y : BitVec 6) (on : Bool) (s : State),
    encode (.plot x y on) &&& 0xFF80C0FE = 0x30000000 ∧
    (x.toNat < 80 → y.toNat < 60 → s.fb.wf = true → s.ScanOk →
      ∃ t b, exec (.plot x y on) s = .next t ∧ s.fb.read (cellOf x y) = some b ∧
        exec (.plot x y on) s = runMicroOps
          (.read (cellOf x y) :: ((if hasDotTag b then [] else [.write (cellOf x y) dotTagByte]) ++
            [.write (cellOf x y) (cellAfterPlot b (bitOf x y) on)])) s ∧
        t.fb.read (cellOf x y) = some (cellAfterPlot b (bitOf x y) on) ∧
        (∀ a, a ≠ cellOf x y → t.fb.read a = s.fb.read a) ∧
        t.responses = s.responses ∧ t.cursor = s.cursor ∧ t.hostPort = s.hostPort ∧ t.refusedOps = s.refusedOps) ∧
    (80 ≤ x.toNat ∨ 60 ≤ y.toNat → exec (.plot x y on) s = .next (faultRecorded .plotRange s))

/-- A legal PLOT into which no word of the Timer falls changes the framebuffer and the order of events and nothing else: not
STATUS, not the scan state, no line, no event (R103, R110, R202; the turns are the model's choice, log 2). -/
def Obligations.UninterruptedPlotChangesOnlyTheFramebuffer : Prop :=
  ∀ (x : BitVec 7) (y : BitVec 6) (on : Bool) (s : State), x.toNat < 80 → y.toNat < 60 →
    (∀ w, .timer w ∉ s.turns) →
    ∃ t, exec (.plot x y on) s = .next t ∧ t = { s with fb := t.fb, turns := t.turns }

/-- A tick between a PLOT's conversion write and its final write renders DOT_TAG_BYTE for the cell (R110, R236): the tick
runs on a framebuffer that holds DOT_TAG_BYTE there and the old bytes everywhere else, and the final write comes after it.
That this order of events is the list of turns host, TICK, host, and that those turns are then used up, are the model's
choices (log 1, log 2). -/
def Obligations.TickInsideAConvertingPlotSeesTheBlankDotCell : Prop :=
  ∀ (x : BitVec 7) (y : BitVec 6) (on : Bool) (s : State) (b : Byte) (rest : List Turn),
    x.toNat < 80 → y.toNat < 60 → s.fb.wf = true → s.ScanOk → s.fb.read (cellOf x y) = some b → ¬hasDotTag b →
    s.turns = .host :: .timer 0x80000000 :: .host :: rest →
    ∃ m u t, m.wf = true ∧ m.read (cellOf x y) = some dotTagByte ∧
      (∀ a, a ≠ cellOf x y → m.read a = s.fb.read a) ∧
      exec .tick { s with fb := m } = .next u ∧ exec (.plot x y on) s = .next t ∧
      t = { u with fb := t.fb, turns := rest } ∧
      t.fb.read (cellOf x y) = some (cellAfterPlot b (bitOf x y) on)

/-- R111 (a derived rule): the legal dots and the pairs of a cell and a bit stand one to one. -/
def Obligations.DotsAndCellBitsStandOneToOne : Prop :=
  (∀ x y : Nat, x < 80 → y < 60 →
    dotOffset x y < 800 ∧ dotBit x y < 6 ∧
    dotColumn (dotOffset x y) (dotBit x y) = x ∧ dotRow (dotOffset x y) (dotBit x y) = y) ∧
  (∀ o k : Nat, o < 800 → k < 6 →
    dotColumn o k < 80 ∧ dotRow o k < 60 ∧
    dotOffset (dotColumn o k) (dotRow o k) = o ∧ dotBit (dotColumn o k) (dotRow o k) = k)

/-- PLOT is idempotent on the framebuffer, whatever ticks are taken inside either of the two (R109 item 1, a derived rule). -/
def Obligations.RepeatedPlotLeavesTheFramebufferAlone : Prop :=
  ∀ (x : BitVec 7) (y : BitVec 6) (on : Bool) (s : State), s.fb.wf = true → s.ScanOk →
    ∃ t u, exec (.plot x y on) s = .next t ∧ exec (.plot x y on) t = .next u ∧ u.fb = t.fb

/-- A dot plotted on and then off is clear, the cell's other bits and every other cell as before the first PLOT; a cell that
was a character cell is DOT_TAG_BYTE afterwards (R109 item 2, a derived rule). -/
def Obligations.PlotOnThenOffClearsTheDotOnly : Prop :=
  ∀ (x : BitVec 7) (y : BitVec 6) (s : State), x.toNat < 80 → y.toNat < 60 → s.fb.wf = true → s.ScanOk →
    ∃ t b, execAll [.plot x y true, .plot x y false] s = .next t ∧ s.fb.read (cellOf x y) = some b ∧
      t.fb.read (cellOf x y) =
        some (if hasDotTag b then b &&& ~~~(1#8 <<< bitOf x y) else dotTagByte) ∧
      ∀ a, a ≠ cellOf x y → t.fb.read a = s.fb.read a

/-- What a command leaves in the framebuffer and what it responds do not depend on the ticks taken inside it: no update is
lost to a tick (R64, R66, R134; R66 and R134 are derived rules). -/
def Obligations.HostResultsDoNotDependOnTicks : Prop :=
  ∀ (i : Instr) (s : State) (ts₁ ts₂ : List Turn), s.ScanOk →
    ∃ t₁ t₂, exec i { s with turns := ts₁ } = .next t₁ ∧ exec i { s with turns := ts₂ } = .next t₂ ∧
      t₁.fb = t₂.fb ∧ t₁.responses = t₂.responses

/-! ### TICK (R130 to R145) -/

/-- R131: from the scan state of a line boundary, TICK emits the glyph bytes of its 40 cells, the LP pulse, the marker's
release if it was asserted and its assertion at the end of a frame, in that order; advances the scan state; and changes
nothing else. Its word is 0x80000000, accepted on the timer port only. -/
def Obligations.TickOutputsOneLineAndAdvancesTheScan : Prop :=
  encode .tick = 0x80000000 ∧ decode .timer 0x80000000 = .command .tick ∧
  (∃ why, decode .host 0x80000000 = .illegal why) ∧
  ∀ s : State, s.ScanOk →
    ∃ (t : State) (code : Nat → Byte), exec .tick s = .next t ∧
      (∀ c, c < 40 → s.fb.read (s.frp.toNat + c) = some (code c)) ∧
      t.trace = s.trace ++
        (List.range 40).flatMap (fun c => glyphEvents (Config.glyphRom (s.grb.toNat + (code c).toNat))) ++
        [.assertLine .lp, .releaseLine .lp] ++ (if s.flm = true then [.releaseLine .flm] else []) ++
        (if s.pr = 1 ∧ s.cr = 1 then [.assertLine .flm] else []) ∧
      t = { s with
        pr := if s.pr = 1 then 12 else s.pr - 1
        cr := if s.pr = 1 then (if s.cr = 1 then 20 else s.cr - 1) else s.cr
        grb := if s.pr = 1 then 0 else s.grb + 256
        frp := if s.pr = 1 then (if s.cr = 1 then 0 else s.frp + 40) else s.frp
        flm := decide (s.pr = 1 ∧ s.cr = 1)
        dout := (Config.glyphRom (s.grb.toNat + (code 39).toNat)).extractLsb' 0 4
        cp := false
        lp := false
        trace := t.trace }

/-- The shape of a tick's trace (R132, a derived rule): 80 nibbles, each followed by one CP pulse, then the LP pulse, and 242
or 243 events in all. -/
def Obligations.TickTraceHasItsShape : Prop :=
  ∀ s : State, s.ScanOk →
    ∃ t es, exec .tick s = .next t ∧ t.trace = s.trace ++ es ∧
      (nibblesOf es).length = 80 ∧
      (∀ j, j < 80 → (∃ v, es[3 * j]? = some (.writeNibble v)) ∧
        es[3 * j + 1]? = some (.assertLine .cp) ∧ es[3 * j + 2]? = some (.releaseLine .cp)) ∧
      es[240]? = some (.assertLine .lp) ∧ es[241]? = some (.releaseLine .lp) ∧
      (es.length = 242 ∨ es.length = 243)

/-- A tick reads the 40 cells of its own row and no other byte of the framebuffer: what it does is the same over any
framebuffer that holds the same 40 bytes (R134, a derived rule). -/
def Obligations.TickReadsOnlyTheCellsOfItsRow : Prop :=
  ∀ (s t : State) (m : Memory), (∀ c, c < 40 → m.read (s.frp.toNat + c) = s.fb.read (s.frp.toNat + c)) →
    exec .tick s = .next t → exec .tick { s with fb := m } = .next { t with fb := m }

/-- R144: TICK runs the same way whether STATUS.FAULTED is 0 or 1, from every state. -/
def Obligations.TickRunsTheSameWhateverStatusHolds : Prop :=
  ∀ (s : State) (f : Bool) (c : Cause),
    exec .tick { s with faulted := f, cause := c } =
      andThen (exec .tick s) fun t => .next { t with faulted := f, cause := c }

/-- One tick moves the scan state from line L to line (L + 1) mod 240 and asserts the frame marker exactly at the end of line
239, whether it was asserted before or not (R135, R136, R137, derived rules). -/
def Obligations.TickMovesToTheNextLine : Prop :=
  ∀ (L : Nat) (s : State), L < 240 → s.AtLine L →
    ∃ t, exec .tick s = .next t ∧ t.AtLine ((L + 1) % 240) ∧ (t.flm = true ↔ L = 239)

/-- The scan state after k ticks from the top of a frame with the marker released (R135, a derived rule), over any
framebuffer: PR, CR, GRB and FRP are those of line k mod 240, FLM is asserted exactly at the end of a frame, and nothing else
than the scan state, the lines and the trace has moved. -/
def Obligations.ScanStateAfterAnyNumberOfTicks : Prop :=
  ∀ (k : Nat) (s : State), s.AtLine 0 → s.flm = false →
    ∃ t, ticks k s = .next t ∧ t.AtLine (k % 240) ∧ (t.flm = true ↔ 240 ≤ k ∧ k % 240 = 0) ∧
      t = { s with
        pr := t.pr, cr := t.cr, grb := t.grb, frp := t.frp, flm := t.flm, dout := t.dout, cp := t.cp, lp := t.lp,
        trace := t.trace }

/-- A frame is 240 ticks with exactly one Assert(FLM), its last event (R136, R137, derived rules; the counts of T8 and T9):
from the top of a frame, whether the marker is asserted there or not. -/
def Obligations.FrameHasOneMarkerAndEndsWithIt : Prop :=
  ∀ s : State, s.AtLine 0 →
    ∃ t es, ticks 240 s = .next t ∧ t.AtLine 0 ∧ t.flm = true ∧ t.trace = s.trace ++ es ∧
      (es.filter isFrameMarker).length = 1 ∧ es.getLast? = some (.assertLine .flm) ∧
      (es.filter fun e => decide (e = .releaseLine .flm)).length = (if s.flm = true then 1 else 0) ∧
      es.length = 240 * 242 + 1 + (if s.flm = true then 1 else 0)

/-- The line image of a tick (R140, R145, derived rules): 320 bits, the glyph bytes of the row's 40 cells on the tick's plane,
each most significant bit first; the plane is 12 - PR and the row 20 - CR (R28, R29), and the byte of code c on plane r is
GLYPH_ROM[r*256 + c] (R11). -/
def Obligations.TickRendersTheGlyphBytesOfItsLine : Prop :=
  ∀ s : State, s.ScanOk →
    ∃ (t : State) (es : List BusEvent) (code : Nat → Byte), exec .tick s = .next t ∧ t.trace = s.trace ++ es ∧
      (∀ c, c < 40 → s.fb.read ((20 - s.cr.toNat) * 40 + c) = some (code c)) ∧
      lineBits es =
        (List.range 40).flatMap fun c => byteBits (Config.glyphRom ((12 - s.pr.toNat) * 256 + (code c).toNat))

/-- 240 ticks from the top of a frame output the whole framebuffer through the glyph table (R136, R140, derived rules): line L,
column c is the glyph byte of plane L mod 12 for the cell in row L div 12, high nibble first, no line skipped or repeated. -/
def Obligations.FrameIsTheFramebufferThroughTheGlyphTable : Prop :=
  ∀ s : State, s.AtLine 0 →
    ∃ t es, ticks 240 s = .next t ∧ t.trace = s.trace ++ es ∧ (nibblesOf es).length = 240 * 80 ∧
      ∀ L c, L < 240 → c < 40 →
        ∃ b, s.fb.read (L / 12 * 40 + c) = some b ∧
          (nibblesOf es)[80 * L + 2 * c]? = some ((Config.glyphRom (L % 12 * 256 + b.toNat)).extractLsb' 4 4) ∧
          (nibblesOf es)[80 * L + 2 * c + 1]? = some ((Config.glyphRom (L % 12 * 256 + b.toNat)).extractLsb' 0 4)

/-- A write performed before a tick is seen by that tick (R62, R65): the column of the cell written shows the new code's glyph
byte. -/
def Obligations.TickShowsTheByteWrittenBeforeIt : Prop :=
  ∀ (ofs : BitVec 10) (code : Byte) (c : Nat) (s : State), s.fb.wf = true → s.ScanOk → c < 40 →
    ofs.toNat = s.frp.toNat + c →
    ∃ t es, execAll [.wrchar ofs code, .tick] s = .next t ∧ t.trace = s.trace ++ es ∧
      (nibblesOf es)[2 * c]? = some ((Config.glyphRom (s.grb.toNat + code.toNat)).extractLsb' 4 4) ∧
      (nibblesOf es)[2 * c + 1]? = some ((Config.glyphRom (s.grb.toNat + code.toNat)).extractLsb' 0 4)

/-! ### Whole-machine rules -/

/-- Where neither the Timer nor the reset input moves, a step leaves the scan state, the output lines and the trace alone: no
command word of the host reaches them (R34, R35). The turns are the model's choice (log 2). -/
def Obligations.HostReachesNeitherScanStateNorLines : Prop :=
  ∀ s t : State, (∀ turn ∈ s.turns, turn = .host) → step s = .next t →
    t.pr = s.pr ∧ t.cr = s.cr ∧ t.grb = s.grb ∧ t.frp = s.frp ∧ t.flm = s.flm ∧ t.dout = s.dout ∧ t.cp = s.cp ∧
      t.lp = s.lp ∧ t.trace = s.trace

/-- On a turn of the Timer nothing of the framebuffer, of the responses or of the host moves: the host is the only writer of
the framebuffer (R25, R62), and a tick changes no host-visible state except the output lines (R205). The turns, of which the
step uses up the one, are the model's choice (log 2). -/
def Obligations.TimerReachesNeitherFramebufferNorHost : Prop :=
  ∀ (s t : State) (w : Word) (rest : List Turn), s.turns = .timer w :: rest → step s = .next t →
    t.fb = s.fb ∧ t.responses = s.responses ∧ t.cursor = s.cursor ∧ t.hostPort = s.hostPort ∧
      t.refusedOps = s.refusedOps ∧ t.turns = rest

/-- The first cause is kept, and only RESET clears STATUS (R202): from a faulted state every step but a RESET leaves STATUS as
it is. The turns are the model's choice (log 2). -/
def Obligations.StatusKeepsItsFirstCauseUntilReset : Prop :=
  ∀ s t : State, s.faulted = true → s.turns.head? ≠ some .reset → step s = .next t →
    t.faulted = true ∧ t.cause = s.cause

/-- A command with legal operands raises no fault, and neither does any TICK taken inside it: not a WRCHAR of any code, not a
PLOT that converts a character cell, not a TICK (R200, R92). The turns are the model's choice (log 2). -/
def Obligations.LegalCommandsRaiseNoFault : Prop :=
  ∀ (i : Instr) (s : State), i.WellFormed = true → s.ScanOk → (∀ w, .timer w ∈ s.turns → w = 0x80000000) →
    ∃ t, exec i s = .next t ∧ t.faulted = s.faulted ∧ t.cause = s.cause

/-- The invariant holds right after RESET (R38, log 8). -/
def Obligations.ResetStateHasTheInvariant : Prop := State.reset.Inv

/-- Every step keeps the invariant: the framebuffer in canonical form (log 8), the scan registers at a line boundary (R28 to
R32, R135), the strobes released, STATUS consistent (R33), CURSOR at most 800. -/
def Obligations.StepKeepsTheInvariant : Prop :=
  ∀ s t : State, s.Inv → step s = .next t → t.Inv

/-- From a state with the invariant no step stops: no unmapped framebuffer offset and no unmapped ROM address is ever formed
(R51, R52, R133, R134; the last two are derived rules; log 12). -/
def Obligations.StepFromTheInvariantNeverStops : Prop :=
  ∀ s : State, s.Inv → ∃ t, step s = .next t

/-- The output lines are what the trace, replayed from released lines, makes them (R35, R130): at RESET, and after every step
from a state where it holds. R35 leaves DOUT unspecified at each RESET, and so does this: it holds for some value of DOUT
there, whichever that is. -/
def Obligations.LinesFollowTheTrace : Prop :=
  State.reset.LinesFollowTrace ∧ ∀ s t : State, s.LinesFollowTrace → step s = .next t → t.LinesFollowTrace

/-- The scan state is that of the line the next tick outputs, counted from the ticks in the trace (R135, a derived rule): at
RESET, and after every step from a state where it holds, a RESET (which empties the trace) and a PLOT with ticks inside it
among them. -/
def Obligations.ScanStateFollowsTheTrace : Prop :=
  State.reset.ScanFollowsTrace ∧ ∀ s t : State, s.ScanFollowsTrace → step s = .next t → t.ScanFollowsTrace

/-! ### Reset (R38, R230, R231) -/

/-- The state right after RESET holds the values R38 collects (a derived rule); DOUT is left unspecified. The framebuffer's
value BLANK_CODE is named, not its number (D10, log 7). -/
def Obligations.ResetValuesAreTheCollectedOnes : Prop :=
  (∀ a, a < 800 → State.reset.fb.read a = some Config.blankCode) ∧
  State.reset.pr.toNat = 12 ∧ State.reset.cr.toNat = 20 ∧ State.reset.grb.toNat = 0 ∧ State.reset.frp.toNat = 0 ∧
  State.reset.flm = false ∧ State.reset.cp = false ∧ State.reset.lp = false ∧
  State.reset.status = (false, 0b00#2) ∧ State.reset.trace = []

/-- Writing BLANK_CODE to every offset in turn, as R231 blanks the framebuffer, leaves exactly the reset contents, whatever
was there; a blank cell is a character cell for both values of DOT_TAG. That BLANK_CODE is 0x20 is the spec's default (D10,
log 7), and that unlisted offsets read as it is the model's choice (log 8). -/
def Obligations.BlankingEveryOffsetGivesTheResetFramebuffer : Prop :=
  (∀ m : Memory, m.wf = true →
    (List.range 800).foldl (fun m a => m.set a Config.blankCode) m = State.reset.fb) ∧
  Config.blankCode.extractLsb' 6 2 ≠ tagBits .tag10 ∧ Config.blankCode.extractLsb' 6 2 ≠ tagBits .tag11

/-! ### Text and shape (R170 to R177) -/

/-- R171: SETCUR sets CURSOR to row*40 + col and issues no command; any operand outside 0..19 and 0..39 is refused. -/
def Obligations.SetcurSetsTheCursorAndIssuesNothing : Prop :=
  ∀ (row col : Nat) (cursor : Option Nat),
    (row ≤ 19 → col ≤ 39 → expand (.setcur row col) cursor = some ⟨some (row * 40 + col), []⟩) ∧
    (20 ≤ row ∨ 40 ≤ col → expand (.setcur row col) cursor = none)

/-- R172: PUTC issues one WRCHAR at CURSOR and advances CURSOR by one, with no wrap, for every byte; it is refused while CURSOR
is undefined or at 800 or beyond. -/
def Obligations.PutcStoresAtTheCursorAndAdvancesIt : Prop :=
  ∀ b : Byte,
    expand (.putc b) none = none ∧
    (∀ c, 800 ≤ c → expand (.putc b) (some c) = none) ∧
    (∀ c, c < 800 → ∃ ofs : BitVec 10, ofs.toNat = c ∧
      expand (.putc b) (some c) = some ⟨some (c + 1), [.wrchar ofs b]⟩)

/-- R173: PUTS issues the WRCHARs of the bytes before the terminating zero, at consecutive offsets from CURSOR, and advances
CURSOR past them; an empty string issues nothing; if one of its PUTCs is refused the whole PUTS is refused. That a list with
no zero byte ends at its last byte is the model's choice (log 16). -/
def Obligations.PutsStoresTheBytesBeforeTheZero : Prop :=
  ∀ (str : List Byte) (cursor : Option Nat),
    let text := str.takeWhile (· ≠ 0)
    (text = [] → expand (.puts str) cursor = some ⟨cursor, []⟩) ∧
    (text ≠ [] → cursor = none → expand (.puts str) cursor = none) ∧
    (∀ c, cursor = some c → text ≠ [] → 800 < c + text.length → expand (.puts str) cursor = none) ∧
    (∀ c, cursor = some c → c + text.length ≤ 800 →
      expand (.puts str) cursor =
        some ⟨some (c + text.length), text.mapIdx fun j b => .wrchar (BitVec.ofNat 10 (c + j)) b⟩)

/-- The host's PUTS reaches the framebuffer: with no turn standing in the way, one step expands it and one more for each byte
before the terminating zero stores it, and every other byte of the framebuffer is as before (R5, R172, R173). One step a
command and one for the expansion are the model's choices (log 1, log 17), so is that an empty list of turns is
the host's turn (log 2), and so is what a list with no zero byte means (log 16). -/
def Obligations.PutsReachesTheFramebuffer : Prop :=
  ∀ (s : State) (str : List Byte) (rest : List HostItem) (c : Nat),
    let text := str.takeWhile (· ≠ 0)
    s.fb.wf = true → s.turns = [] → s.hostPort = .pseudo (.puts str) :: rest → s.cursor = some c →
    c + text.length ≤ 800 →
    ∃ t : State, Host.Core.run Sys2Proof.core (text.length + 1) s = .next t ∧
      (∀ j, j < text.length → t.fb.read (c + j) = text[j]?) ∧
      (∀ a, a < c ∨ c + text.length ≤ a → t.fb.read a = s.fb.read a) ∧
      t = { s with fb := t.fb, cursor := some (c + text.length), hostPort := rest }

/-- R174: the commands a DRAWBOX expands to, run one after the other, leave the six box codes on the outline and every other
cell unchanged, the interior too, and touch nothing but the framebuffer. -/
def Obligations.DrawboxLeavesItsOutline : Prop :=
  ∀ (s : State) (r c w h : Nat), s.fb.wf = true → 2 ≤ w → 2 ≤ h → r + h ≤ 20 → c + w ≤ 40 →
    ∃ t e, expand (.drawbox r c w h) s.cursor = some e ∧ execAll e.commands s = .next t ∧ t = { s with fb := t.fb } ∧
      ∀ i j, i < 20 → j < 40 → t.fb.read (i * 40 + j) =
        if i = r ∧ j = c then some Config.boxUL
        else if i = r ∧ j = c + w - 1 then some Config.boxUR
        else if i = r + h - 1 ∧ j = c then some Config.boxLL
        else if i = r + h - 1 ∧ j = c + w - 1 then some Config.boxLR
        else if (i = r ∨ i = r + h - 1) ∧ c < j ∧ j < c + w - 1 then some Config.boxH
        else if (j = c ∨ j = c + w - 1) ∧ r < i ∧ i < r + h - 1 then some Config.boxV
        else s.fb.read (i * 40 + j)

/-- The order of a DRAWBOX's commands (R175), their number 2(w + h) - 4, and that no two name the same offset (the last two
are derived there). -/
def Obligations.DrawboxIssuesDistinctStoresInOrder : Prop :=
  ∀ (r c w h : Nat) (cursor : Option Nat), 2 ≤ w → 2 ≤ h → r + h ≤ 20 → c + w ≤ 40 →
    let top := (List.range (w - 2)).map fun j => (r * 40 + (c + 1 + j), Config.boxH)
    let right := (List.range (h - 2)).map fun i => ((r + 1 + i) * 40 + (c + w - 1), Config.boxV)
    let left := (List.range (h - 2)).map fun i => ((r + 1 + i) * 40 + c, Config.boxV)
    let bottom := (List.range (w - 2)).map fun j => ((r + h - 1) * 40 + (c + 1 + j), Config.boxH)
    let stores := [(r * 40 + c, Config.boxUL)] ++ top ++ [(r * 40 + (c + w - 1), Config.boxUR)] ++ right ++
      [((r + h - 1) * 40 + (c + w - 1), Config.boxLR)] ++ left ++ [((r + h - 1) * 40 + c, Config.boxLL)] ++ bottom
    expand (.drawbox r c w h) cursor = some ⟨cursor, stores.map storeOf⟩ ∧
      stores.length = 2 * (w + h) - 4 ∧ (stores.map Prod.fst).Nodup ∧ ∀ p ∈ stores, p.1 < 800

/-- R176: a DRAWBOX is accepted only when width and height are at least 2 and the box lies inside the framebuffer; otherwise it
is refused and issues nothing. -/
def Obligations.DrawboxIsRefusedExactlyOutsideItsPreconditions : Prop :=
  ∀ (r c w h : Nat) (cursor : Option Nat),
    (expand (.drawbox r c w h) cursor).isSome = true ↔ (2 ≤ w ∧ 2 ≤ h) ∧ (r + h ≤ 20 ∧ c + w ≤ 40)

/-! ### The assembler (R91) -/

/-- The assembler refuses an operand that does not fit its field, and assembles a line whose operands fit to that command with
those values, whether or not they lie in the legal range (R91, R92). -/
def Obligations.AssemblerRefusesExactlyWhatDoesNotFit : Prop :=
  ∀ ofs code x y on : Nat,
    (ofs < 1024 ∧ code < 256 → ∃ (o : BitVec 10) (c : Byte), o.toNat = ofs ∧ c.toNat = code ∧
      assemble (.wrchar ofs code) = some (.command (.wrchar o c))) ∧
    (¬(ofs < 1024 ∧ code < 256) → assemble (.wrchar ofs code) = none) ∧
    (ofs < 1024 → ∃ o : BitVec 10, o.toNat = ofs ∧ assemble (.rdcell ofs) = some (.command (.rdcell o))) ∧
    (¬ofs < 1024 → assemble (.rdcell ofs) = none) ∧
    (x < 128 ∧ y < 64 ∧ on < 2 → ∃ (x' : BitVec 7) (y' : BitVec 6) (on' : Bool),
      x'.toNat = x ∧ y'.toNat = y ∧ on'.toNat = on ∧ assemble (.plot x y on) = some (.command (.plot x' y' on'))) ∧
    (¬(x < 128 ∧ y < 64 ∧ on < 2) → assemble (.plot x y on) = none) ∧
    assemble .tick = some (.command .tick)
end

