-- ==== Sys2Proof/Laws/Memory.lean ====
section
/-! SUPPORT. The framebuffer's contents: a read after a write, the canonical form, and that equal contents are equal data. -/

namespace Sys2Proof.Machine

/-- A write leaves every other offset alone (R56). -/
theorem Memory.get_set_other {m : Memory} {a b : Nat} (h : b ≠ a) (v : Byte) : (m.set a v).get b = m.get b := by
  induction m with
  | nil =>
    unfold Memory.set
    split <;> simp [Memory.get, Ne.symm h]
  | cons cell rest ih =>
    obtain ⟨a', v'⟩ := cell
    unfold Memory.set
    split
    · split <;> simp [Memory.get, Ne.symm h]
    · split
      · subst_vars
        split <;> simp [Memory.get, Ne.symm h]
      · simp [Memory.get, ih]

/-- Contents listed from offset lo on hold nothing below it. -/
theorem Memory.get_below {m : Memory} {lo a : Nat} (h : Memory.wfFrom lo m = true) (ha : a < lo) :
    m.get a = Config.blankCode := by
  induction m generalizing lo with
  | nil => rfl
  | cons cell rest ih =>
    obtain ⟨a', v'⟩ := cell
    simp only [Memory.wfFrom, Bool.and_eq_true, decide_eq_true_eq] at h
    have : a' ≠ a := by omega
    simpa [Memory.get, this] using ih h.2 (by omega)

theorem Memory.get_set_same_from {m : Memory} {lo : Nat} (h : Memory.wfFrom lo m = true) (a : Nat) (v : Byte) :
    (m.set a v).get a = v := by
  induction m generalizing lo with
  | nil =>
    unfold Memory.set
    split
    · simp_all [Memory.get]
    · simp [Memory.get]
  | cons cell rest ih =>
    obtain ⟨a', v'⟩ := cell
    simp only [Memory.wfFrom, Bool.and_eq_true, decide_eq_true_eq] at h
    unfold Memory.set
    split
    · split
      · have hne : a' ≠ a := by omega
        simp only [Memory.get, hne, if_false]
        subst_vars
        exact Memory.get_below h.2 (by omega)
      · simp [Memory.get]
    · split
      · split
        · subst_vars
          exact Memory.get_below h.2 (by omega)
        · simp [Memory.get]
      · have hne : a' ≠ a := fun e => by simp_all
        simpa [Memory.get, hne] using ih h.2

/-- A read after a write to the same offset gives the byte written (R62). -/
theorem Memory.get_set_same {m : Memory} (h : m.wf = true) (a : Nat) (v : Byte) : (m.set a v).get a = v :=
  Memory.get_set_same_from h a v

theorem Memory.wfFrom_mono {m : Memory} {lo lo' : Nat} (h : Memory.wfFrom lo m = true) (hl : lo' ≤ lo) :
    Memory.wfFrom lo' m = true := by
  cases m with
  | nil => rfl
  | cons cell rest =>
    simp only [Memory.wfFrom, Bool.and_eq_true, decide_eq_true_eq] at h ⊢
    exact ⟨⟨⟨by omega, h.1.1.2⟩, h.1.2⟩, h.2⟩

theorem Memory.wfFrom_set {m : Memory} {lo a : Nat} (h : Memory.wfFrom lo m = true) (hl : lo ≤ a)
    (ha : a < Config.fbSize) (v : Byte) : Memory.wfFrom lo (m.set a v) = true := by
  induction m generalizing lo with
  | nil =>
    unfold Memory.set
    split
    · rfl
    · simp_all [Memory.wfFrom]
  | cons cell rest ih =>
    obtain ⟨a', v'⟩ := cell
    simp only [Memory.wfFrom, Bool.and_eq_true, decide_eq_true_eq] at h
    obtain ⟨⟨⟨h1, h2⟩, h3⟩, h4⟩ := h
    unfold Memory.set
    split
    · split
      · simp [Memory.wfFrom, h1, h2, h4]
        simpa using h3
      · simp_all [Memory.wfFrom]
    · split
      · split
        · exact Memory.wfFrom_mono h4 (by omega)
        · subst_vars
          simp_all [Memory.wfFrom]
      · have := ih h4 (by omega)
        simp_all [Memory.wfFrom]

/-- A write to a mapped offset keeps the canonical form. -/
theorem Memory.wf_set {m : Memory} (h : m.wf = true) {a : Nat} (ha : a < Config.fbSize) (v : Byte) :
    (m.set a v).wf = true :=
  Memory.wfFrom_set h (Nat.zero_le a) ha v

theorem Memory.eq_of_get_from {m₁ m₂ : Memory} {lo : Nat} (h₁ : Memory.wfFrom lo m₁ = true)
    (h₂ : Memory.wfFrom lo m₂ = true) (h : ∀ a, m₁.get a = m₂.get a) : m₁ = m₂ := by
  induction m₁ generalizing m₂ lo with
  | nil =>
    cases m₂ with
    | nil => rfl
    | cons cell rest =>
      have := h cell.1
      simp only [Memory.wfFrom, Memory.get, if_true, Bool.and_eq_true, Bool.not_eq_true', decide_eq_false_iff_not] at h₂ this
      exact absurd this.symm h₂.1.2
  | cons c₁ r₁ ih =>
    cases m₂ with
    | nil =>
      have := h c₁.1
      simp only [Memory.wfFrom, Memory.get, if_true, Bool.and_eq_true, Bool.not_eq_true', decide_eq_false_iff_not] at h₁ this
      exact absurd this h₁.1.2
    | cons c₂ r₂ =>
      obtain ⟨a₁, v₁⟩ := c₁
      obtain ⟨a₂, v₂⟩ := c₂
      simp only [Memory.wfFrom, Bool.and_eq_true, Bool.not_eq_true', decide_eq_true_eq, decide_eq_false_iff_not] at h₁ h₂
      have ha : a₁ = a₂ := by
        rcases Nat.lt_trichotomy a₁ a₂ with hlt | heq | hgt
        · have e := h a₁
          simp only [Memory.get, if_true, if_neg (by omega : ¬a₂ = a₁), Memory.get_below h₂.2 (by omega : a₁ < a₂ + 1)] at e
          exact absurd e h₁.1.2
        · exact heq
        · have e := h a₂
          simp only [Memory.get, if_true, if_neg (by omega : ¬a₁ = a₂), Memory.get_below h₁.2 (by omega : a₂ < a₁ + 1)] at e
          exact absurd e.symm h₂.1.2
      subst ha
      have hv : v₁ = v₂ := by simpa [Memory.get] using h a₁
      subst hv
      rw [ih h₁.2 h₂.2 fun a => ?_]
      by_cases hc : a = a₁
      · rw [hc, Memory.get_below h₁.2 (by omega), Memory.get_below h₂.2 (by omega)]
      · simpa [Memory.get, Ne.symm hc] using h a

/-- Equal contents are equal data: the canonical form is unique. -/
theorem Memory.eq_of_get {m₁ m₂ : Memory} (h₁ : m₁.wf = true) (h₂ : m₂.wf = true)
    (h : ∀ a, m₁.get a = m₂.get a) : m₁ = m₂ :=
  Memory.eq_of_get_from h₁ h₂ h

/-- Nothing is held outside 0..799. -/
theorem Memory.get_outside {m : Memory} {lo a : Nat} (h : Memory.wfFrom lo m = true) (ha : Config.fbSize ≤ a) :
    m.get a = Config.blankCode := by
  induction m generalizing lo with
  | nil => rfl
  | cons cell rest ih =>
    obtain ⟨a', v'⟩ := cell
    simp only [Memory.wfFrom, Bool.and_eq_true, decide_eq_true_eq] at h
    have : a' ≠ a := by omega
    simpa [Memory.get, this] using ih h.2

theorem Memory.read_mapped {m : Memory} {a : Nat} (ha : a < Config.fbSize) : m.read a = some (m.get a) := by
  simp [Memory.read, ha]

theorem Memory.read_set_same {m : Memory} (h : m.wf = true) {a : Nat} (ha : a < Config.fbSize) (v : Byte) :
    (m.set a v).read a = some v := by
  rw [Memory.read_mapped ha, Memory.get_set_same h]

theorem Memory.read_set_other {m : Memory} {a b : Nat} (h : b ≠ a) (v : Byte) : (m.set a v).read b = m.read b := by
  simp [Memory.read, Memory.get_set_other h]

/-- Two writes to one offset leave what the second one writes. -/
theorem Memory.set_set {m : Memory} (h : m.wf = true) {a : Nat} (ha : a < Config.fbSize) (v w : Byte) :
    (m.set a v).set a w = m.set a w := by
  refine Memory.eq_of_get (Memory.wf_set (Memory.wf_set h ha v) ha w) (Memory.wf_set h ha w) fun b => ?_
  by_cases hb : b = a
  · subst hb
    rw [Memory.get_set_same (Memory.wf_set h ha v), Memory.get_set_same h]
  · rw [Memory.get_set_other hb, Memory.get_set_other hb, Memory.get_set_other hb]

end Sys2Proof.Machine
end

