-- ==== Sys2Proof/Laws/State.lean ====
section
/-! SUPPORT. What each named update of the state leaves in each field: one lemma per field, so that no later proof unfolds a
record update. -/

namespace Sys2Proof.Machine

/-! ### driveLines moves the output lines only -/

@[simp] theorem driveLines_fb (e : BusEvent) (s : State) : (driveLines e s).fb = s.fb := by
  rcases e with _ | ⟨⟨⟩⟩ | ⟨⟨⟩⟩ <;> rfl

@[simp] theorem driveLines_pr (e : BusEvent) (s : State) : (driveLines e s).pr = s.pr := by
  rcases e with _ | ⟨⟨⟩⟩ | ⟨⟨⟩⟩ <;> rfl

@[simp] theorem driveLines_cr (e : BusEvent) (s : State) : (driveLines e s).cr = s.cr := by
  rcases e with _ | ⟨⟨⟩⟩ | ⟨⟨⟩⟩ <;> rfl

@[simp] theorem driveLines_grb (e : BusEvent) (s : State) : (driveLines e s).grb = s.grb := by
  rcases e with _ | ⟨⟨⟩⟩ | ⟨⟨⟩⟩ <;> rfl

@[simp] theorem driveLines_frp (e : BusEvent) (s : State) : (driveLines e s).frp = s.frp := by
  rcases e with _ | ⟨⟨⟩⟩ | ⟨⟨⟩⟩ <;> rfl

@[simp] theorem driveLines_faulted (e : BusEvent) (s : State) : (driveLines e s).faulted = s.faulted := by
  rcases e with _ | ⟨⟨⟩⟩ | ⟨⟨⟩⟩ <;> rfl

@[simp] theorem driveLines_cause (e : BusEvent) (s : State) : (driveLines e s).cause = s.cause := by
  rcases e with _ | ⟨⟨⟩⟩ | ⟨⟨⟩⟩ <;> rfl

@[simp] theorem driveLines_trace (e : BusEvent) (s : State) : (driveLines e s).trace = s.trace := by
  rcases e with _ | ⟨⟨⟩⟩ | ⟨⟨⟩⟩ <;> rfl

@[simp] theorem driveLines_responses (e : BusEvent) (s : State) : (driveLines e s).responses = s.responses := by
  rcases e with _ | ⟨⟨⟩⟩ | ⟨⟨⟩⟩ <;> rfl

@[simp] theorem driveLines_cursor (e : BusEvent) (s : State) : (driveLines e s).cursor = s.cursor := by
  rcases e with _ | ⟨⟨⟩⟩ | ⟨⟨⟩⟩ <;> rfl

@[simp] theorem driveLines_hostPort (e : BusEvent) (s : State) : (driveLines e s).hostPort = s.hostPort := by
  rcases e with _ | ⟨⟨⟩⟩ | ⟨⟨⟩⟩ <;> rfl

@[simp] theorem driveLines_refusedOps (e : BusEvent) (s : State) : (driveLines e s).refusedOps = s.refusedOps := by
  rcases e with _ | ⟨⟨⟩⟩ | ⟨⟨⟩⟩ <;> rfl

@[simp] theorem driveLines_turns (e : BusEvent) (s : State) : (driveLines e s).turns = s.turns := by
  rcases e with _ | ⟨⟨⟩⟩ | ⟨⟨⟩⟩ <;> rfl

/-! ### emit moves the output lines and appends to the trace -/

@[simp] theorem emit_fb (e : BusEvent) (s : State) : (emit e s).fb = s.fb := by simp [emit]

@[simp] theorem emit_pr (e : BusEvent) (s : State) : (emit e s).pr = s.pr := by simp [emit]

@[simp] theorem emit_cr (e : BusEvent) (s : State) : (emit e s).cr = s.cr := by simp [emit]

@[simp] theorem emit_grb (e : BusEvent) (s : State) : (emit e s).grb = s.grb := by simp [emit]

@[simp] theorem emit_frp (e : BusEvent) (s : State) : (emit e s).frp = s.frp := by simp [emit]

@[simp] theorem emit_flm (e : BusEvent) (s : State) : (emit e s).flm = (driveLines e s).flm := rfl

@[simp] theorem emit_dout (e : BusEvent) (s : State) : (emit e s).dout = (driveLines e s).dout := rfl

@[simp] theorem emit_cp (e : BusEvent) (s : State) : (emit e s).cp = (driveLines e s).cp := rfl

@[simp] theorem emit_lp (e : BusEvent) (s : State) : (emit e s).lp = (driveLines e s).lp := rfl

@[simp] theorem emit_faulted (e : BusEvent) (s : State) : (emit e s).faulted = s.faulted := by simp [emit]

@[simp] theorem emit_cause (e : BusEvent) (s : State) : (emit e s).cause = s.cause := by simp [emit]

@[simp] theorem emit_trace (e : BusEvent) (s : State) : (emit e s).trace = s.trace ++ [e] := rfl

@[simp] theorem emit_responses (e : BusEvent) (s : State) : (emit e s).responses = s.responses := by simp [emit]

@[simp] theorem emit_cursor (e : BusEvent) (s : State) : (emit e s).cursor = s.cursor := by simp [emit]

@[simp] theorem emit_hostPort (e : BusEvent) (s : State) : (emit e s).hostPort = s.hostPort := by simp [emit]

@[simp] theorem emit_refusedOps (e : BusEvent) (s : State) : (emit e s).refusedOps = s.refusedOps := by simp [emit]

@[simp] theorem emit_turns (e : BusEvent) (s : State) : (emit e s).turns = s.turns := by simp [emit]

/-! ### emitAll: the events in order -/

@[simp] theorem emitAll_nil (s : State) : emitAll [] s = s := rfl

@[simp] theorem emitAll_cons (e : BusEvent) (es : List BusEvent) (s : State) :
    emitAll (e :: es) s = emitAll es (emit e s) := rfl

theorem emitAll_append (es₁ es₂ : List BusEvent) (s : State) :
    emitAll (es₁ ++ es₂) s = emitAll es₂ (emitAll es₁ s) := by
  induction es₁ generalizing s with
  | nil => rfl
  | cons e es ih => exact ih (emit e s)

theorem emitAll_trace (es : List BusEvent) (s : State) : (emitAll es s).trace = s.trace ++ es := by
  induction es generalizing s with
  | nil => simp
  | cons e es ih => simp [ih]

@[simp] theorem emitAll_fb (es : List BusEvent) (s : State) : (emitAll es s).fb = s.fb := by
  induction es generalizing s with
  | nil => rfl
  | cons e es ih => simp [ih]

@[simp] theorem emitAll_pr (es : List BusEvent) (s : State) : (emitAll es s).pr = s.pr := by
  induction es generalizing s with
  | nil => rfl
  | cons e es ih => simp [ih]

@[simp] theorem emitAll_cr (es : List BusEvent) (s : State) : (emitAll es s).cr = s.cr := by
  induction es generalizing s with
  | nil => rfl
  | cons e es ih => simp [ih]

@[simp] theorem emitAll_grb (es : List BusEvent) (s : State) : (emitAll es s).grb = s.grb := by
  induction es generalizing s with
  | nil => rfl
  | cons e es ih => simp [ih]

@[simp] theorem emitAll_frp (es : List BusEvent) (s : State) : (emitAll es s).frp = s.frp := by
  induction es generalizing s with
  | nil => rfl
  | cons e es ih => simp [ih]

@[simp] theorem emitAll_faulted (es : List BusEvent) (s : State) : (emitAll es s).faulted = s.faulted := by
  induction es generalizing s with
  | nil => rfl
  | cons e es ih => simp [ih]

@[simp] theorem emitAll_cause (es : List BusEvent) (s : State) : (emitAll es s).cause = s.cause := by
  induction es generalizing s with
  | nil => rfl
  | cons e es ih => simp [ih]

@[simp] theorem emitAll_responses (es : List BusEvent) (s : State) : (emitAll es s).responses = s.responses := by
  induction es generalizing s with
  | nil => rfl
  | cons e es ih => simp [ih]

@[simp] theorem emitAll_cursor (es : List BusEvent) (s : State) : (emitAll es s).cursor = s.cursor := by
  induction es generalizing s with
  | nil => rfl
  | cons e es ih => simp [ih]

@[simp] theorem emitAll_hostPort (es : List BusEvent) (s : State) : (emitAll es s).hostPort = s.hostPort := by
  induction es generalizing s with
  | nil => rfl
  | cons e es ih => simp [ih]

@[simp] theorem emitAll_refusedOps (es : List BusEvent) (s : State) : (emitAll es s).refusedOps = s.refusedOps := by
  induction es generalizing s with
  | nil => rfl
  | cons e es ih => simp [ih]

@[simp] theorem emitAll_turns (es : List BusEvent) (s : State) : (emitAll es s).turns = s.turns := by
  induction es generalizing s with
  | nil => rfl
  | cons e es ih => simp [ih]

/-! ### The lines after events -/

@[simp] theorem driveLines_writeNibble (v : Nibble) (s : State) :
    driveLines (.writeNibble v) s = { s with dout := v } := rfl
@[simp] theorem driveLines_assert_cp (s : State) : driveLines (.assertLine .cp) s = { s with cp := true } := rfl
@[simp] theorem driveLines_assert_lp (s : State) : driveLines (.assertLine .lp) s = { s with lp := true } := rfl
@[simp] theorem driveLines_assert_flm (s : State) : driveLines (.assertLine .flm) s = { s with flm := true } := rfl
@[simp] theorem driveLines_release_cp (s : State) : driveLines (.releaseLine .cp) s = { s with cp := false } := rfl
@[simp] theorem driveLines_release_lp (s : State) : driveLines (.releaseLine .lp) s = { s with lp := false } := rfl
@[simp] theorem driveLines_release_flm (s : State) : driveLines (.releaseLine .flm) s = { s with flm := false } := rfl

/-- Events drive two states with the same lines and the same trace alike, whatever else the two hold. -/
theorem emitAll_sameLines (es : List BusEvent) {s u : State} (h1 : u.dout = s.dout) (h2 : u.cp = s.cp) (h3 : u.lp = s.lp)
    (h4 : u.flm = s.flm) (h5 : u.trace = s.trace) :
    emitAll es u = { u with
      dout := (emitAll es s).dout, cp := (emitAll es s).cp, lp := (emitAll es s).lp, flm := (emitAll es s).flm,
      trace := (emitAll es s).trace } := by
  induction es generalizing s u with
  | nil => simp [← h1, ← h2, ← h3, ← h4, ← h5]
  | cons e es ih =>
    have lines : (emit e u).dout = (emit e s).dout ∧ (emit e u).cp = (emit e s).cp ∧ (emit e u).lp = (emit e s).lp ∧
        (emit e u).flm = (emit e s).flm := by
      rcases e with _ | ⟨⟨⟩⟩ | ⟨⟨⟩⟩ <;> simp [h1, h2, h3, h4]
    have := ih lines.1 lines.2.1 lines.2.2.1 lines.2.2.2 (by simp [h5] : (emit e u).trace = (emit e s).trace)
    rw [emitAll_cons, this]
    rcases e with _ | ⟨⟨⟩⟩ | ⟨⟨⟩⟩ <;> rfl

/-! ### respond appends one response -/

@[simp] theorem respond_fb (v : Byte) (s : State) : (respond v s).fb = s.fb := rfl

@[simp] theorem respond_pr (v : Byte) (s : State) : (respond v s).pr = s.pr := rfl

@[simp] theorem respond_cr (v : Byte) (s : State) : (respond v s).cr = s.cr := rfl

@[simp] theorem respond_grb (v : Byte) (s : State) : (respond v s).grb = s.grb := rfl

@[simp] theorem respond_frp (v : Byte) (s : State) : (respond v s).frp = s.frp := rfl

@[simp] theorem respond_flm (v : Byte) (s : State) : (respond v s).flm = s.flm := rfl

@[simp] theorem respond_dout (v : Byte) (s : State) : (respond v s).dout = s.dout := rfl

@[simp] theorem respond_cp (v : Byte) (s : State) : (respond v s).cp = s.cp := rfl

@[simp] theorem respond_lp (v : Byte) (s : State) : (respond v s).lp = s.lp := rfl

@[simp] theorem respond_faulted (v : Byte) (s : State) : (respond v s).faulted = s.faulted := rfl

@[simp] theorem respond_cause (v : Byte) (s : State) : (respond v s).cause = s.cause := rfl

@[simp] theorem respond_trace (v : Byte) (s : State) : (respond v s).trace = s.trace := rfl

@[simp] theorem respond_responses (v : Byte) (s : State) : (respond v s).responses = s.responses ++ [v] := rfl

@[simp] theorem respond_cursor (v : Byte) (s : State) : (respond v s).cursor = s.cursor := rfl

@[simp] theorem respond_hostPort (v : Byte) (s : State) : (respond v s).hostPort = s.hostPort := rfl

@[simp] theorem respond_refusedOps (v : Byte) (s : State) : (respond v s).refusedOps = s.refusedOps := rfl

@[simp] theorem respond_turns (v : Byte) (s : State) : (respond v s).turns = s.turns := rfl

/-! ### raiseFault moves STATUS only (R202) -/

@[simp] theorem raiseFault_fb (c : Cause) (s : State) : (raiseFault c s).fb = s.fb := by
  cases h : s.faulted <;> simp [raiseFault, h]

@[simp] theorem raiseFault_pr (c : Cause) (s : State) : (raiseFault c s).pr = s.pr := by
  cases h : s.faulted <;> simp [raiseFault, h]

@[simp] theorem raiseFault_cr (c : Cause) (s : State) : (raiseFault c s).cr = s.cr := by
  cases h : s.faulted <;> simp [raiseFault, h]

@[simp] theorem raiseFault_grb (c : Cause) (s : State) : (raiseFault c s).grb = s.grb := by
  cases h : s.faulted <;> simp [raiseFault, h]

@[simp] theorem raiseFault_frp (c : Cause) (s : State) : (raiseFault c s).frp = s.frp := by
  cases h : s.faulted <;> simp [raiseFault, h]

@[simp] theorem raiseFault_flm (c : Cause) (s : State) : (raiseFault c s).flm = s.flm := by
  cases h : s.faulted <;> simp [raiseFault, h]

@[simp] theorem raiseFault_dout (c : Cause) (s : State) : (raiseFault c s).dout = s.dout := by
  cases h : s.faulted <;> simp [raiseFault, h]

@[simp] theorem raiseFault_cp (c : Cause) (s : State) : (raiseFault c s).cp = s.cp := by
  cases h : s.faulted <;> simp [raiseFault, h]

@[simp] theorem raiseFault_lp (c : Cause) (s : State) : (raiseFault c s).lp = s.lp := by
  cases h : s.faulted <;> simp [raiseFault, h]

@[simp] theorem raiseFault_faulted (c : Cause) (s : State) : (raiseFault c s).faulted = true := by
  cases h : s.faulted <;> simp [raiseFault, h]

@[simp] theorem raiseFault_cause (c : Cause) (s : State) :
    (raiseFault c s).cause = if s.faulted then s.cause else c := by
  cases h : s.faulted <;> simp [raiseFault, h]

@[simp] theorem raiseFault_trace (c : Cause) (s : State) : (raiseFault c s).trace = s.trace := by
  cases h : s.faulted <;> simp [raiseFault, h]

@[simp] theorem raiseFault_responses (c : Cause) (s : State) : (raiseFault c s).responses = s.responses := by
  cases h : s.faulted <;> simp [raiseFault, h]

@[simp] theorem raiseFault_cursor (c : Cause) (s : State) : (raiseFault c s).cursor = s.cursor := by
  cases h : s.faulted <;> simp [raiseFault, h]

@[simp] theorem raiseFault_hostPort (c : Cause) (s : State) : (raiseFault c s).hostPort = s.hostPort := by
  cases h : s.faulted <;> simp [raiseFault, h]

@[simp] theorem raiseFault_refusedOps (c : Cause) (s : State) : (raiseFault c s).refusedOps = s.refusedOps := by
  cases h : s.faulted <;> simp [raiseFault, h]

@[simp] theorem raiseFault_turns (c : Cause) (s : State) : (raiseFault c s).turns = s.turns := by
  cases h : s.faulted <;> simp [raiseFault, h]

/-! ### applyReset keeps what is not the block's (R230) -/

@[simp] theorem applyReset_fb (s : State) : (applyReset s).fb = State.reset.fb := rfl

@[simp] theorem applyReset_pr (s : State) : (applyReset s).pr = State.reset.pr := rfl

@[simp] theorem applyReset_cr (s : State) : (applyReset s).cr = State.reset.cr := rfl

@[simp] theorem applyReset_grb (s : State) : (applyReset s).grb = State.reset.grb := rfl

@[simp] theorem applyReset_frp (s : State) : (applyReset s).frp = State.reset.frp := rfl

@[simp] theorem applyReset_flm (s : State) : (applyReset s).flm = State.reset.flm := rfl

@[simp] theorem applyReset_dout (s : State) : (applyReset s).dout = State.reset.dout := rfl

@[simp] theorem applyReset_cp (s : State) : (applyReset s).cp = State.reset.cp := rfl

@[simp] theorem applyReset_lp (s : State) : (applyReset s).lp = State.reset.lp := rfl

@[simp] theorem applyReset_faulted (s : State) : (applyReset s).faulted = State.reset.faulted := rfl

@[simp] theorem applyReset_cause (s : State) : (applyReset s).cause = State.reset.cause := rfl

@[simp] theorem applyReset_trace (s : State) : (applyReset s).trace = State.reset.trace := rfl

@[simp] theorem applyReset_responses (s : State) : (applyReset s).responses = s.responses := rfl

@[simp] theorem applyReset_cursor (s : State) : (applyReset s).cursor = s.cursor := rfl

@[simp] theorem applyReset_hostPort (s : State) : (applyReset s).hostPort = s.hostPort := rfl

@[simp] theorem applyReset_refusedOps (s : State) : (applyReset s).refusedOps = s.refusedOps := rfl

@[simp] theorem applyReset_turns (s : State) : (applyReset s).turns = s.turns := rfl

/-! ### nextPlane moves GRB only -/

@[simp] theorem nextPlane_fb (s : State) : (nextPlane s).fb = s.fb := rfl

@[simp] theorem nextPlane_pr (s : State) : (nextPlane s).pr = s.pr := rfl

@[simp] theorem nextPlane_cr (s : State) : (nextPlane s).cr = s.cr := rfl

@[simp] theorem nextPlane_grb (s : State) : (nextPlane s).grb = s.grb + 256 := rfl

@[simp] theorem nextPlane_frp (s : State) : (nextPlane s).frp = s.frp := rfl

@[simp] theorem nextPlane_flm (s : State) : (nextPlane s).flm = s.flm := rfl

@[simp] theorem nextPlane_dout (s : State) : (nextPlane s).dout = s.dout := rfl

@[simp] theorem nextPlane_cp (s : State) : (nextPlane s).cp = s.cp := rfl

@[simp] theorem nextPlane_lp (s : State) : (nextPlane s).lp = s.lp := rfl

@[simp] theorem nextPlane_faulted (s : State) : (nextPlane s).faulted = s.faulted := rfl

@[simp] theorem nextPlane_cause (s : State) : (nextPlane s).cause = s.cause := rfl

@[simp] theorem nextPlane_trace (s : State) : (nextPlane s).trace = s.trace := rfl

@[simp] theorem nextPlane_responses (s : State) : (nextPlane s).responses = s.responses := rfl

@[simp] theorem nextPlane_cursor (s : State) : (nextPlane s).cursor = s.cursor := rfl

@[simp] theorem nextPlane_hostPort (s : State) : (nextPlane s).hostPort = s.hostPort := rfl

@[simp] theorem nextPlane_refusedOps (s : State) : (nextPlane s).refusedOps = s.refusedOps := rfl

@[simp] theorem nextPlane_turns (s : State) : (nextPlane s).turns = s.turns := rfl

end Sys2Proof.Machine
end

