-- ==== Sys2Proof/Laws/Refresh.lean ====
section
/-! SUPPORT. What a tick can do, said once (R131): its events, its scan registers, and the fields it never touches. -/

namespace Sys2Proof.Machine

/-- The events of the shift phase over a list of columns, as the state at its start determines them. -/
def shiftEvents (cols : List Nat) (s : State) : List BusEvent :=
  cols.flatMap fun col => columnEvents (Config.glyphRom (s.grb.toNat + (s.fb.get (s.frp.toNat + col)).toNat))

theorem shiftColumn_next {col : Nat} {s t : State} (h : shiftColumn col s = .next t) :
    t = emitAll (shiftEvents [col] s) s := by
  unfold shiftColumn Memory.read romRead at h
  by_cases h1 : s.frp.toNat + col < Config.fbSize
  · by_cases h2 : s.grb.toNat + (s.fb.get (s.frp.toNat + col)).toNat < Config.romSize
    · simp only [h1, h2, if_true, Host.Outcome.next.injEq] at h
      simp [shiftEvents, h]
    · simp [h1, h2] at h
  · simp [h1] at h

/-- The shift phase, where it does not stop, emits the events of its columns and does nothing else. -/
theorem shiftColumns_next {cols : List Nat} {s t : State} (h : shiftColumns cols s = .next t) :
    t = emitAll (shiftEvents cols s) s := by
  induction cols generalizing s with
  | nil => simpa [shiftColumns, shiftEvents] using h.symm
  | cons col rest ih =>
    simp only [shiftColumns] at h
    cases hc : shiftColumn col s with
    | next u =>
      rw [hc] at h
      have hu := shiftColumn_next hc
      have ht := ih h
      rw [hu] at ht
      rw [ht]
      simp [shiftEvents, emitAll_append]
    | fault _ => simp [hc, andThen] at h
    | refused _ => simp [hc, andThen] at h

/-- The shift phase does not stop where every address it forms is mapped (R133, R134). -/
theorem shiftColumns_runs {cols : List Nat} {s : State} (hfb : ∀ c ∈ cols, s.frp.toNat + c < Config.fbSize)
    (hrom : s.grb.toNat + 255 < Config.romSize) : shiftColumns cols s = .next (emitAll (shiftEvents cols s) s) := by
  induction cols generalizing s with
  | nil => rfl
  | cons col rest ih =>
    have h1 : s.frp.toNat + col < Config.fbSize := hfb col (by simp)
    have h2 : s.grb.toNat + (s.fb.get (s.frp.toNat + col)).toNat < Config.romSize := by
      have := (s.fb.get (s.frp.toNat + col)).isLt
      omega
    have hc : shiftColumn col s = .next (emitAll (shiftEvents [col] s) s) := by
      simp [shiftColumn, Memory.read, romRead, h1, h2, shiftEvents]
    simp only [shiftColumns, hc, andThen]
    rw [ih (s := emitAll (shiftEvents [col] s) s) (by
      intro c hm
      simpa using hfb c (by simp [hm])) (by simpa using hrom)]
    simp [shiftEvents, emitAll_append]

/-- A tick, where it does not stop, is its shift phase and then steps 2 to 5 of R131. -/
theorem runTick_next {s t : State} (h : runTick s = .next t) :
    t = finishLine (emitAll (shiftEvents (List.range 40) s) s) := by
  unfold runTick at h
  cases hc : shiftColumns (List.range Config.charCols) s with
  | next u =>
    rw [hc] at h
    rw [show shiftEvents (List.range 40) s = shiftEvents (List.range Config.charCols) s from rfl, ← shiftColumns_next hc]
    simpa [andThen] using h.symm
  | fault _ => simp [hc, andThen] at h
  | refused _ => simp [hc, andThen] at h

/-- From the scan registers of a line boundary a tick never stops (R133, R134). -/
theorem runTick_runs {s : State} (h : s.ScanOk) :
    runTick s = .next (finishLine (emitAll (shiftEvents (List.range 40) s) s)) := by
  obtain ⟨⟨hp1, hp2⟩, ⟨hc1, hc2⟩, hg, hf, -⟩ := h
  have hs := shiftColumns_runs (cols := List.range Config.charCols) (s := s)
    (by
      intro c hm
      simp only [List.mem_range, Config.charCols] at hm
      simp only [State.charRow] at hf
      simp only [Config.fbSize]
      omega)
    (by
      simp only [State.plane] at hg
      simp only [Config.romSize]
      omega)
  simp only [runTick, hs, andThen]

/-! ### The lines after the shift phase (R132) -/

theorem shiftEvents_strobes (cols : List Nat) (s u : State) (hcp : u.cp = false) :
    (emitAll (shiftEvents cols s) u).cp = false ∧ (emitAll (shiftEvents cols s) u).lp = u.lp ∧
      (emitAll (shiftEvents cols s) u).flm = u.flm := by
  induction cols generalizing u with
  | nil => exact ⟨hcp, rfl, rfl⟩
  | cons col rest ih =>
    simp only [shiftEvents, List.flatMap_cons, emitAll_append]
    have := ih (emitAll (columnEvents (Config.glyphRom (s.grb.toNat + (s.fb.get (s.frp.toNat + col)).toNat))) u)
      (by simp [columnEvents])
    simpa [columnEvents, shiftEvents] using this

/-- After a whole line's shift phase CP is released, whatever it was before. -/
theorem shiftEvents_line (s u : State) :
    (emitAll (shiftEvents (List.range 40) s) u).cp = false ∧ (emitAll (shiftEvents (List.range 40) s) u).lp = u.lp ∧
      (emitAll (shiftEvents (List.range 40) s) u).flm = u.flm := by
  have : shiftEvents (List.range 40) s = shiftEvents [0] s ++ shiftEvents ((List.range 39).map Nat.succ) s := by
    rw [List.range_succ_eq_map]
    simp [shiftEvents]
  rw [this, emitAll_append]
  have h := shiftEvents_strobes ((List.range 39).map Nat.succ) s (emitAll (shiftEvents [0] s) u)
    (by simp [shiftEvents, columnEvents])
  simpa [shiftEvents, columnEvents] using h

/-! ### Steps 2 to 5 of R131 -/

/-- Steps 2 to 5, field by field. -/
theorem finishLine_eq (s : State) :
    finishLine s =
      { s with
        pr := if s.pr = 1#4 then 12 else s.pr - 1#4
        cr := if s.pr = 1#4 then (if s.cr = 1#5 then 20 else s.cr - 1#5) else s.cr
        grb := if s.pr = 1#4 then 0 else s.grb + 256#12
        frp := if s.pr = 1#4 then (if s.cr = 1#5 then 0 else s.frp + 40#10) else s.frp
        flm := decide (s.pr = 1#4 ∧ s.cr = 1#5)
        lp := false
        trace := s.trace ++ [.assertLine .lp, .releaseLine .lp] ++
          (if s.flm then [.releaseLine .flm] else []) ++
          (if s.pr = 1#4 ∧ s.cr = 1#5 then [.assertLine .flm] else []) } := by
  have e1 : (s.pr - 1#4 = 0#4) = (s.pr = 1#4) := propext ⟨fun h => by bv_omega, fun h => by bv_omega⟩
  have e2 : (s.cr - 1#5 = 0#5) = (s.cr = 1#5) := propext ⟨fun h => by bv_omega, fun h => by bv_omega⟩
  cases hm : s.flm <;> by_cases h1 : s.pr = 1#4 <;> by_cases h2 : s.cr = 1#5 <;>
    simp [finishLine, countLine, nextRow, assertMarker, releaseMarker, nextPlane, loadLine, emit, hm, h1, h2, e1, e2]

/-! ### What steps 2 to 5 and a whole tick leave alone (R34, R134, R142) -/

@[simp] theorem finishLine_fb (s : State) : (finishLine s).fb = s.fb := by simp [finishLine_eq]

@[simp] theorem finishLine_faulted (s : State) : (finishLine s).faulted = s.faulted := by simp [finishLine_eq]

@[simp] theorem finishLine_cause (s : State) : (finishLine s).cause = s.cause := by simp [finishLine_eq]

@[simp] theorem finishLine_responses (s : State) : (finishLine s).responses = s.responses := by simp [finishLine_eq]

@[simp] theorem finishLine_cursor (s : State) : (finishLine s).cursor = s.cursor := by simp [finishLine_eq]

@[simp] theorem finishLine_hostPort (s : State) : (finishLine s).hostPort = s.hostPort := by simp [finishLine_eq]

@[simp] theorem finishLine_refusedOps (s : State) : (finishLine s).refusedOps = s.refusedOps := by simp [finishLine_eq]

@[simp] theorem finishLine_turns (s : State) : (finishLine s).turns = s.turns := by simp [finishLine_eq]

theorem runTick_fb {s t : State} (h : runTick s = .next t) : t.fb = s.fb := by simp [runTick_next h]

theorem runTick_faulted {s t : State} (h : runTick s = .next t) : t.faulted = s.faulted := by simp [runTick_next h]

theorem runTick_cause {s t : State} (h : runTick s = .next t) : t.cause = s.cause := by simp [runTick_next h]

theorem runTick_responses {s t : State} (h : runTick s = .next t) : t.responses = s.responses := by simp [runTick_next h]

theorem runTick_cursor {s t : State} (h : runTick s = .next t) : t.cursor = s.cursor := by simp [runTick_next h]

theorem runTick_hostPort {s t : State} (h : runTick s = .next t) : t.hostPort = s.hostPort := by simp [runTick_next h]

theorem runTick_refusedOps {s t : State} (h : runTick s = .next t) : t.refusedOps = s.refusedOps := by simp [runTick_next h]

theorem runTick_turns {s t : State} (h : runTick s = .next t) : t.turns = s.turns := by simp [runTick_next h]

/-- A tick leaves both strobes released. -/
theorem runTick_strobes {s t : State} (h : runTick s = .next t) : t.StrobesIdle := by
  rw [runTick_next h, finishLine_eq]
  exact ⟨(shiftEvents_line s s).1, rfl⟩

/-- The trace of a tick (R131, R132). -/
theorem runTick_trace {s t : State} (h : runTick s = .next t) :
    t.trace = s.trace ++ shiftEvents (List.range 40) s ++ [.assertLine .lp, .releaseLine .lp] ++
      (if s.flm then [.releaseLine .flm] else []) ++ (if s.pr = 1#4 ∧ s.cr = 1#5 then [.assertLine .flm] else []) := by
  rw [runTick_next h, finishLine_eq]
  simp [emitAll_trace, (shiftEvents_line s s).2.2]

@[simp] theorem ticksIn_append (es fs : List BusEvent) : ticksIn (es ++ fs) = ticksIn es + ticksIn fs :=
  List.countP_append

/-- The shift phase pulses CP and never LP. -/
theorem ticksIn_shiftEvents (cols : List Nat) (s : State) : ticksIn (shiftEvents cols s) = 0 := by
  simp only [ticksIn, List.countP_eq_zero, shiftEvents, List.mem_flatMap, columnEvents]
  rintro e ⟨_, -, he⟩
  simp only [List.mem_cons, List.not_mem_nil, or_false] at he
  rcases he with rfl | rfl | rfl | rfl | rfl | rfl <;> simp

/-- A tick adds one tick to the trace (R132). -/
theorem runTick_ticksIn {s t : State} (h : runTick s = .next t) : ticksIn t.trace = ticksIn s.trace + 1 := by
  rw [runTick_trace h]
  simp only [ticksIn_append, ticksIn_shiftEvents]
  split <;> split <;> simp [ticksIn]

/-- The scan registers after a tick (R131). -/
theorem runTick_scan {s t : State} (h : runTick s = .next t) :
    t.pr = (if s.pr = 1#4 then 12 else s.pr - 1#4) ∧
    t.cr = (if s.pr = 1#4 then (if s.cr = 1#5 then 20 else s.cr - 1#5) else s.cr) ∧
    t.grb = (if s.pr = 1#4 then 0 else s.grb + 256#12) ∧
    t.frp = (if s.pr = 1#4 then (if s.cr = 1#5 then 0 else s.frp + 40#10) else s.frp) ∧
    t.flm = decide (s.pr = 1#4 ∧ s.cr = 1#5) := by
  rw [runTick_next h, finishLine_eq]
  simp

/-- A tick keeps the scan registers at a line boundary (R135). -/
theorem runTick_scanOk {s t : State} (h : runTick s = .next t) (hs : s.ScanOk) : t.ScanOk := by
  obtain ⟨e1, e2, e3, e4, e5⟩ := runTick_scan h
  obtain ⟨hp, hc, hg, hf, -⟩ := hs
  have q1 : (s.pr = 1#4) ↔ s.pr.toNat = 1 := by constructor <;> intro h <;> bv_omega
  have q2 : (s.cr = 1#5) ↔ s.cr.toNat = 1 := by constructor <;> intro h <;> bv_omega
  simp only [State.ScanOk, State.plane, State.charRow, State.line] at *
  rw [e1, e2, e3, e4, e5]
  by_cases h1 : s.pr = 1#4
  · by_cases h2 : s.cr = 1#5
    · simp [h1, h2]
    · have hc1 : (s.cr - 1#5).toNat = s.cr.toNat - 1 := by bv_omega
      have hf1 : (s.frp + 40#10).toNat = s.frp.toNat + 40 := by bv_omega
      simp only [h1, h2, if_true, if_false, hc1, hf1]
      have := mt q2.2 h2
      simp
      omega
  · have hp1 : (s.pr - 1#4).toNat = s.pr.toNat - 1 := by bv_omega
    have := mt q1.2 h1
    have hg1 : (s.grb + 256#12).toNat = s.grb.toNat + 256 := by bv_omega
    simp only [h1, if_false, hp1, hg1]
    simp
    omega

end Sys2Proof.Machine
end

