-- ==== Sys2Proof/Laws/Arbiter.lean ====
section
/-! SUPPORT. What a boundary, a sequence of micro-operations, a command and a step can do, said once: whatever a tick, a
fault, a framebuffer write, a response, a RESET and a move of the host's own state keep, they keep. -/

namespace Sys2Proof.Machine

/-! ### andThen -/

theorem andThen_next {r : Result} {f : State → Result} {t : State} (h : andThen r f = .next t) :
    ∃ u, r = .next u ∧ f u = .next t := by
  cases r with
  | next u => exact ⟨u, rfl, h⟩
  | fault _ => simp [andThen] at h
  | refused _ => simp [andThen] at h

@[simp] theorem andThen_of_next (u : State) (f : State → Result) : andThen (.next u) f = f u := rfl

/-! ### Framebuffer accesses -/

theorem fbWrite_next {a : Nat} {v : Byte} {s t : State} (h : fbWrite a v s = .next t) :
    a < Config.fbSize ∧ t = { s with fb := s.fb.set a v } := by
  unfold fbWrite at h
  split at h
  · exact ⟨by assumption, by simpa using h.symm⟩
  · simp at h

theorem runMicroOp_next {op : MicroOp} {s t : State} (h : runMicroOp op s = .next t) :
    (∃ a, op = .read a ∧ a < Config.fbSize ∧ t = s) ∨
    (∃ a v, op = .write a v ∧ a < Config.fbSize ∧ t = { s with fb := s.fb.set a v }) := by
  cases op with
  | read a =>
    simp only [runMicroOp] at h
    split at h
    · exact .inl ⟨a, rfl, by assumption, by simpa using h.symm⟩
    · simp at h
  | write a v => exact .inr ⟨a, v, rfl, fbWrite_next h⟩

/-! ### Words on the timer port -/

theorem decodeWord_port_timer {w : Word} {i : Instr} (h : decodeWord w = .command i) (hp : i.port = .timer) :
    i = .tick := by
  cases i <;> simp_all [Instr.port]

/-- The timer port accepts TICK only (R90). -/
theorem decode_timer {w : Word} {i : Instr} (h : decode .timer w = .command i) : i = .tick := by
  unfold decode at h
  split at h
  · split at h
    · simp only [Decoded.command.injEq] at h
      subst h
      exact decodeWord_port_timer (by assumption) (by assumption)
    · simp at h
  · simp at h

/-- A word on the timer port runs a tick or is ILLEGAL_COMMAND. -/
theorem timerWord_cases (w : Word) (s : State) :
    timerWord w s = runTick s ∨ timerWord w s = .next (raiseFault .illegalCommand s) := by
  unfold timerWord
  split
  · exact .inl rfl
  · exact .inr rfl

/-- Between two micro-operations and between two commands a word on the timer port does the same. -/
theorem portWord_timer (w : Word) (s : State) : portWord .timer w s = timerWord w s := by
  unfold portWord timerWord
  cases h : decode .timer w with
  | command i =>
    rw [decode_timer h]
    rfl
  | illegal _ => rfl

/-! ### What every part of the machine keeps -/

/-- P is kept by everything that can happen at a boundary: a tick, the fault of a word on the timer port, a turn used up. -/
structure KeptAtBoundary (P : State → Prop) : Prop where
  turns : ∀ s ts, P s → P { s with turns := ts }
  fault : ∀ s, P s → P (raiseFault .illegalCommand s)
  tick : ∀ s t, P s → runTick s = .next t → P t

/-- P is kept by everything a step can do. -/
structure Kept (P : State → Prop) : Prop extends KeptAtBoundary P where
  anyFault : ∀ c s, c ≠ .noFault → P s → P (raiseFault c s)
  write : ∀ a v s, a < Config.fbSize → P s → P { s with fb := s.fb.set a v }
  respond : ∀ v s, P s → P (respond v s)
  queue : ∀ q s, P s → P { s with hostPort := q }
  expanded : ∀ p e s, expand p s.cursor = some e → P s → P { s with cursor := e.cursor }
  refuse : ∀ p s, P s → P { s with refusedOps := s.refusedOps ++ [p] }
  reset : ∀ s, P s → P (applyReset s)

variable {P : State → Prop}

theorem KeptAtBoundary.timerWord (hk : KeptAtBoundary P) {w : Word} {s t : State} (hs : P s)
    (h : timerWord w s = .next t) : P t := by
  rcases timerWord_cases w s with e | e
  · exact hk.tick s t hs (e ▸ h)
  · rw [e] at h
    simp only [Host.Outcome.next.injEq] at h
    exact h ▸ hk.fault s hs

theorem KeptAtBoundary.boundaryOver (hk : KeptAtBoundary P) {ts : List Turn} {s t : State} (hs : P s)
    (h : boundaryOver ts s = .next t) : P t := by
  induction ts generalizing s with
  | nil =>
    simp only [Machine.boundaryOver, Host.Outcome.next.injEq] at h
    exact h ▸ hk.turns s _ hs
  | cons turn rest ih =>
    cases turn with
    | host =>
      simp only [Machine.boundaryOver, Host.Outcome.next.injEq] at h
      exact h ▸ hk.turns s _ hs
    | reset =>
      simp only [Machine.boundaryOver, Host.Outcome.next.injEq] at h
      exact h ▸ hk.turns s _ hs
    | timer w =>
      obtain ⟨u, hu, ht⟩ := andThen_next h
      exact ih (hk.timerWord (hk.turns s rest hs) hu) ht

theorem KeptAtBoundary.boundary (hk : KeptAtBoundary P) {s t : State} (hs : P s) (h : boundary s = .next t) : P t :=
  hk.boundaryOver hs h

theorem Kept.runMicroOp (hk : Kept P) {op : MicroOp} {s t : State} (hs : P s) (h : runMicroOp op s = .next t) : P t := by
  rcases runMicroOp_next h with ⟨a, -, -, e⟩ | ⟨a, v, -, ha, e⟩
  · exact e ▸ hs
  · exact e ▸ hk.write a v s ha hs

theorem Kept.runRest (hk : Kept P) {ops : List MicroOp} {s t : State} (hs : P s) (h : runRest ops s = .next t) : P t := by
  induction ops generalizing s with
  | nil =>
    simp only [Machine.runRest, Host.Outcome.next.injEq] at h
    exact h ▸ hs
  | cons op ops ih =>
    obtain ⟨u, hu, h⟩ := andThen_next h
    obtain ⟨v, hv, h⟩ := andThen_next h
    exact ih (hk.runMicroOp (hk.boundary hs hu) hv) h

theorem Kept.runMicroOps (hk : Kept P) {ops : List MicroOp} {s t : State} (hs : P s) (h : runMicroOps ops s = .next t) :
    P t := by
  cases ops with
  | nil =>
    simp only [Machine.runMicroOps, Host.Outcome.next.injEq] at h
    exact h ▸ hs
  | cons op ops =>
    obtain ⟨u, hu, h⟩ := andThen_next h
    exact hk.runRest (hk.runMicroOp hs hu) h

/-- Every command keeps what its parts keep. -/
theorem Kept.exec (hk : Kept P) {i : Instr} {s t : State} (hs : P s) (h : exec i s = .next t) : P t := by
  cases i with
  | wrchar ofs code =>
    simp only [Machine.exec, execWrchar] at h
    split at h
    · exact hk.runMicroOps hs h
    · simp only [Host.Outcome.next.injEq] at h
      exact h ▸ hk.anyFault _ s (by decide) hs
  | rdcell ofs =>
    simp only [Machine.exec, execRdcell] at h
    split at h
    · obtain ⟨u, hu, h⟩ := andThen_next h
      simp only [Host.Outcome.next.injEq] at h
      exact h ▸ hk.respond _ u (hk.runMicroOps hs hu)
    · simp only [Host.Outcome.next.injEq] at h
      exact h ▸ hk.anyFault _ s (by decide) hs
  | plot x y on =>
    simp only [Machine.exec, execPlot] at h
    split at h
    · exact hk.runMicroOps hs h
    · simp only [Host.Outcome.next.injEq] at h
      exact h ▸ hk.anyFault _ s (by decide) hs
  | tick => exact hk.tick s t hs h

theorem Kept.portWord (hk : Kept P) {p : Port} {w : Word} {s t : State} (hs : P s) (h : portWord p w s = .next t) :
    P t := by
  unfold Machine.portWord at h
  split at h
  · exact hk.exec hs h
  · simp only [Host.Outcome.next.injEq] at h
    exact h ▸ hk.fault s hs

theorem Kept.hostMove (hk : Kept P) {s t : State} (hs : P s) (h : hostMove s = .next t) : P t := by
  unfold Machine.hostMove at h
  split at h
  · rename_i w rest _
    have hs' := hk.turns _ s.turns.tail (hk.queue rest s hs)
    exact hk.portWord hs' h
  · rename_i p rest _
    simp only [Host.Outcome.next.injEq] at h
    subst h
    unfold runPseudo
    split
    · exact hk.queue _ _ (hk.expanded p _ s (by assumption) hs)
    · exact hk.queue _ _ (hk.refuse p s hs)
  · simp only [Host.Outcome.next.injEq] at h
    exact h ▸ hk.turns s _ hs

/-- Every step keeps what its parts keep. -/
theorem Kept.step (hk : Kept P) {s t : State} (hs : P s) (h : step s = .next t) : P t := by
  unfold Machine.step at h
  split at h
  · exact hk.portWord (hk.turns s _ hs) h
  · simp only [Host.Outcome.next.injEq] at h
    exact h ▸ hk.reset _ (hk.turns s _ hs)
  · exact hk.hostMove hs h
  · exact hk.hostMove hs h

/-! ### What a boundary leaves alone -/

/-- A boundary moves neither the framebuffer, nor a response, nor anything of the host (R34, R66, R134). -/
theorem boundary_frame {s t : State} (h : boundary s = .next t) :
    t.fb = s.fb ∧ t.responses = s.responses ∧ t.cursor = s.cursor ∧ t.hostPort = s.hostPort ∧
      t.refusedOps = s.refusedOps := by
  have hk : KeptAtBoundary fun u => u.fb = s.fb ∧ u.responses = s.responses ∧ u.cursor = s.cursor ∧
      u.hostPort = s.hostPort ∧ u.refusedOps = s.refusedOps :=
    { turns := fun _ _ hu => hu
      fault := fun u hu => by simpa using hu
      tick := fun u v hu hv => by
        simpa [runTick_fb hv, runTick_responses hv, runTick_cursor hv, runTick_hostPort hv, runTick_refusedOps hv] using hu }
  exact hk.boundary ⟨rfl, rfl, rfl, rfl, rfl⟩ h

/-- From the scan registers of a line boundary a boundary never stops, and leaves them so. -/
theorem boundaryOver_runs (ts : List Turn) {s : State} (hs : s.ScanOk) :
    ∃ t, boundaryOver ts s = .next t ∧ t.ScanOk := by
  induction ts generalizing s with
  | nil => exact ⟨_, rfl, hs⟩
  | cons turn rest ih =>
    cases turn with
    | host => exact ⟨_, rfl, hs⟩
    | reset => exact ⟨_, rfl, hs⟩
    | timer w =>
      have hs' : State.ScanOk { s with turns := rest } := hs
      simp only [boundaryOver]
      rcases timerWord_cases w { s with turns := rest } with e | e
      · have hr := runTick_runs hs'
        rw [e, hr]
        exact ih (runTick_scanOk hr hs')
      · rw [e]
        exact ih (by simpa [State.ScanOk, State.plane, State.charRow, State.line] using hs)

theorem boundary_runs {s : State} (hs : s.ScanOk) : ∃ t, boundary s = .next t ∧ t.ScanOk := boundaryOver_runs s.turns hs

/-- A boundary at which the Timer presents nothing only uses up the host's turn. -/
theorem boundary_quiet {s : State} (h : ∀ w, .timer w ∉ s.turns) :
    ∃ ts, boundary s = .next { s with turns := ts } ∧ (∀ w, .timer w ∉ ts) ∧ (s.turns = [] → ts = []) := by
  unfold boundary
  cases hts : s.turns with
  | nil => exact ⟨[], rfl, by simp, fun _ => rfl⟩
  | cons turn rest =>
    rw [hts] at h
    cases turn with
    | host => exact ⟨rest, rfl, fun w hw => h w (by simp [hw]), by simp⟩
    | reset => exact ⟨.reset :: rest, rfl, h, by simp⟩
    | timer w => exact absurd (by simp) (h w)

/-! ### What a command's micro-operations do to the framebuffer (R110) -/

/-- The framebuffer after a micro-operation. -/
def MicroOp.onMemory : MicroOp → Memory → Memory
  | .read _, m => m
  | .write a v, m => m.set a v

theorem runMicroOp_fb {op : MicroOp} {s t : State} (h : runMicroOp op s = .next t) : t.fb = op.onMemory s.fb := by
  rcases runMicroOp_next h with ⟨a, rfl, -, rfl⟩ | ⟨a, v, rfl, -, rfl⟩ <;> rfl

theorem runRest_fb {ops : List MicroOp} {s t : State} (h : runRest ops s = .next t) :
    t.fb = ops.foldl (fun m op => op.onMemory m) s.fb := by
  induction ops generalizing s with
  | nil =>
    simp only [runRest, Host.Outcome.next.injEq] at h
    simp [h]
  | cons op ops ih =>
    obtain ⟨u, hu, h⟩ := andThen_next h
    obtain ⟨v, hv, h⟩ := andThen_next h
    rw [ih h, runMicroOp_fb hv, (boundary_frame hu).1]
    rfl

/-- The framebuffer after a command's micro-operations does not depend on the ticks between them (R66). -/
theorem runMicroOps_fb {ops : List MicroOp} {s t : State} (h : runMicroOps ops s = .next t) :
    t.fb = ops.foldl (fun m op => op.onMemory m) s.fb := by
  cases ops with
  | nil =>
    simp only [runMicroOps, Host.Outcome.next.injEq] at h
    simp [h]
  | cons op ops =>
    obtain ⟨u, hu, h⟩ := andThen_next h
    rw [runRest_fb h, runMicroOp_fb hu]
    rfl

/-- Every micro-operation of the list names a mapped offset. -/
def MicroOp.Mapped : MicroOp → Prop
  | .read a => a < Config.fbSize
  | .write a _ => a < Config.fbSize

theorem runMicroOp_runs {op : MicroOp} (ho : op.Mapped) {s : State} (hs : s.ScanOk) :
    ∃ t, runMicroOp op s = .next t ∧ t.ScanOk := by
  cases op with
  | read a => exact ⟨s, by simp [runMicroOp, show a < Config.fbSize from ho], hs⟩
  | write a v => exact ⟨{ s with fb := s.fb.set a v }, by simp [runMicroOp, fbWrite, show a < Config.fbSize from ho], hs⟩

theorem runRest_runs {ops : List MicroOp} (ho : ∀ op ∈ ops, op.Mapped) {s : State} (hs : s.ScanOk) :
    ∃ t, runRest ops s = .next t ∧ t.ScanOk := by
  induction ops generalizing s with
  | nil => exact ⟨s, rfl, hs⟩
  | cons op ops ih =>
    obtain ⟨u, hu, hus⟩ := boundary_runs hs
    obtain ⟨v, hv, hvs⟩ := runMicroOp_runs (ho op (by simp)) hus
    obtain ⟨t, ht, hts⟩ := ih (fun o hm => ho o (by simp [hm])) hvs
    exact ⟨t, by simp only [runRest, hu, hv, ht, andThen_of_next], hts⟩

/-- From the scan registers of a line boundary the micro-operations of a legal command never stop. -/
theorem runMicroOps_runs {ops : List MicroOp} (ho : ∀ op ∈ ops, op.Mapped) {s : State} (hs : s.ScanOk) :
    ∃ t, runMicroOps ops s = .next t ∧ t.ScanOk := by
  cases ops with
  | nil => exact ⟨s, rfl, hs⟩
  | cons op ops =>
    obtain ⟨u, hu, hus⟩ := runMicroOp_runs (ho op (by simp)) hs
    obtain ⟨t, ht, hts⟩ := runRest_runs (ops := ops) (fun o hm => ho o (by simp [hm])) hus
    exact ⟨t, by simp only [runMicroOps, hu, ht, andThen_of_next], hts⟩

/-- Micro-operations other than a command's first move, where the Timer presents nothing, only the framebuffer and the
turns. -/
theorem runRest_quiet {ops : List MicroOp} (ho : ∀ op ∈ ops, op.Mapped) {s : State} (h : ∀ w, .timer w ∉ s.turns) :
    ∃ ts, runRest ops s = .next { s with fb := ops.foldl (fun m op => op.onMemory m) s.fb, turns := ts } ∧
      (s.turns = [] → ts = []) := by
  induction ops generalizing s with
  | nil => exact ⟨s.turns, rfl, id⟩
  | cons op ops ih =>
    obtain ⟨ts, hb, hq, hn⟩ := boundary_quiet h
    have hop := ho op (by simp)
    obtain ⟨ts', hr, hn'⟩ := ih (fun o hm => ho o (by simp [hm]))
      (s := { s with turns := ts, fb := op.onMemory s.fb }) hq
    refine ⟨ts', ?_, fun e => hn' (hn e)⟩
    have hm : runMicroOp op { s with turns := ts } = .next { s with turns := ts, fb := op.onMemory s.fb } := by
      cases op with
      | read a => simp [runMicroOp, show a < Config.fbSize from hop, MicroOp.onMemory]
      | write a v => simp [runMicroOp, fbWrite, show a < Config.fbSize from hop, MicroOp.onMemory]
    simp only [runRest, hb, andThen_of_next, hm, hr]
    rfl

/-! ### The codec (R105) -/

/-- A legal dot's cell is a cell of the framebuffer (R105). -/
theorem dotOffset_mapped {x y : Nat} (hx : x < 80) : dotOffset x y < Config.fbSize := by
  simp only [dotOffset, flipY, Config.charCols, Config.fbSize]
  omega

/-- A legal PLOT's micro-operations all name its cell. -/
theorem plotMicroOps_mapped {t : DotTag} {a k : Nat} {b : Byte} {on : Bool} (ha : a < Config.fbSize) :
    ∀ op ∈ plotMicroOps t a b k on, op.Mapped := by
  intro op hop
  simp only [plotMicroOps, List.mem_cons, List.mem_map] at hop
  rcases hop with rfl | ⟨v, -, rfl⟩ <;> exact ha

/-- The framebuffer after a PLOT's micro-operations: its cell holds the plotted byte. -/
theorem plotMicroOps_onMemory {m : Memory} (hm : m.wf = true) {t : DotTag} {a k : Nat} {b : Byte} {on : Bool}
    (ha : a < Config.fbSize) :
    (plotMicroOps t a b k on).foldl (fun m op => op.onMemory m) m = m.set a (plottedCell t b k on) := by
  cases hd : isDotCell t b
  · simp [plotMicroOps, plotWrites, hd, MicroOp.onMemory, Memory.set_set hm ha]
  · simp [plotMicroOps, plotWrites, hd, MicroOp.onMemory]

/-- A byte is a dot cell exactly when b[7:6] == DOT_TAG (R26). -/
theorem isDotCell_eq (t : DotTag) (b : Byte) : isDotCell t b = decide (b.extractLsb' 6 2 = tagBits t) := by
  revert b
  cases t <;> decide

/-- DOT_TAG_BYTE = DOT_TAG << 6 (R8). -/
theorem tagByte_eq (t : DotTag) : tagByte t = (tagBits t).setWidth 8 <<< 6 := by
  cases t <;> decide

end Sys2Proof.Machine
end

