-- ==== Sys2Proof/Laws/Cell.lean ====
section
/-! SUPPORT. What WRCHAR, RDCELL and PLOT do on legal operands and on operands out of range (R100, R102, R103). -/

namespace Sys2Proof.Machine

theorem execWrchar_legal {ofs : BitVec 10} (h : ofs.toNat < 800) (code : Byte) (s : State) :
    execWrchar ofs code s = .next { s with fb := s.fb.set ofs.toNat code } := by
  simp [execWrchar, runMicroOps, runMicroOp, fbWrite, runRest, h]

theorem execWrchar_range {ofs : BitVec 10} (h : 800 ≤ ofs.toNat) (code : Byte) (s : State) :
    execWrchar ofs code s = .next (raiseFault .offsetRange s) := by
  simp [execWrchar, Nat.not_lt.2 h]

theorem execRdcell_legal {ofs : BitVec 10} (h : ofs.toNat < 800) (s : State) :
    execRdcell ofs s = .next (respond (s.fb.get ofs.toNat) s) := by
  simp [execRdcell, runMicroOps, runMicroOp, runRest, h]

theorem execRdcell_range {ofs : BitVec 10} (h : 800 ≤ ofs.toNat) (s : State) :
    execRdcell ofs s = .next (raiseFault .offsetRange s) := by
  simp [execRdcell, Nat.not_lt.2 h]

theorem execPlot_legal {x : BitVec 7} {y : BitVec 6} (hx : x.toNat < 80) (hy : y.toNat < 60) (on : Bool) (s : State) :
    execPlot x y on s =
      runMicroOps (plotMicroOps Config.dotTag (dotOffset x.toNat y.toNat) (s.fb.get (dotOffset x.toNat y.toNat))
        (dotBit x.toNat y.toNat) on) s := by
  simp [execPlot, hx, hy]

theorem execPlot_range {x : BitVec 7} {y : BitVec 6} (h : 80 ≤ x.toNat ∨ 60 ≤ y.toNat) (on : Bool) (s : State) :
    execPlot x y on s = .next (raiseFault .plotRange s) := by
  unfold execPlot
  rw [if_neg (by show ¬(x.toNat < 80 ∧ y.toNat < 60); omega)]

/-- A legal PLOT never stops from the scan registers of a line boundary, and its cell holds the plotted byte afterwards. -/
theorem execPlot_runs {x : BitVec 7} {y : BitVec 6} (hx : x.toNat < 80) (hy : y.toNat < 60) (on : Bool) {s : State}
    (hs : s.ScanOk) :
    ∃ t, execPlot x y on s = .next t ∧ t.ScanOk ∧ (s.fb.wf = true → t.fb = s.fb.set (dotOffset x.toNat y.toNat)
      (plottedCell Config.dotTag (s.fb.get (dotOffset x.toNat y.toNat)) (dotBit x.toNat y.toNat) on)) := by
  rw [execPlot_legal hx hy]
  obtain ⟨t, ht, hts⟩ := runMicroOps_runs (plotMicroOps_mapped (t := Config.dotTag)
    (k := dotBit x.toNat y.toNat) (b := s.fb.get (dotOffset x.toNat y.toNat)) (on := on)
    (dotOffset_mapped (y := y.toNat) hx)) hs
  exact ⟨t, ht, hts, fun hm => by rw [runMicroOps_fb ht, plotMicroOps_onMemory hm (dotOffset_mapped hx)]⟩

/-- What a PLOT leaves alone, whatever ticks are taken inside it. -/
theorem execPlot_frame {x : BitVec 7} {y : BitVec 6} {on : Bool} {s t : State} (h : execPlot x y on s = .next t) :
    t.responses = s.responses ∧ t.cursor = s.cursor ∧ t.hostPort = s.hostPort ∧ t.refusedOps = s.refusedOps := by
  have rest : ∀ (ops : List MicroOp) (u v : State), runRest ops u = .next v →
      v.responses = u.responses ∧ v.cursor = u.cursor ∧ v.hostPort = u.hostPort ∧ v.refusedOps = u.refusedOps := by
    intro ops
    induction ops with
    | nil =>
      intro u v h
      simp only [runRest, Host.Outcome.next.injEq] at h
      simp [h]
    | cons op ops ih =>
      intro u v h
      obtain ⟨a, ha, h⟩ := andThen_next h
      obtain ⟨b, hb, h⟩ := andThen_next h
      obtain ⟨-, e1, e2, e3, e4⟩ := boundary_frame ha
      have hv := ih b v h
      rcases runMicroOp_next hb with ⟨_, -, -, rfl⟩ | ⟨_, _, -, -, rfl⟩ <;> simpa [e1, e2, e3, e4] using hv
  unfold execPlot at h
  split at h
  · obtain ⟨u, hu, h⟩ := andThen_next h
    have ht := rest _ _ _ h
    rcases runMicroOp_next hu with ⟨_, -, -, rfl⟩ | ⟨_, _, -, -, rfl⟩ <;> simpa using ht
  · simp only [Host.Outcome.next.injEq] at h
    simp [← h]

end Sys2Proof.Machine
end

