-- ==== Sys2Proof/Laws/PerInstr.lean ====
section
/-! SUPPORT. Per-instruction statements. TableRow: the word of a command has its row's match value under its row's mask
(R100, R102, R103, R84). -/

namespace Sys2Proof.Laws.TableRow

/-- The mask of the command's row. -/
def mask : Instr → Word
  | .wrchar _ _ => 0xFC00FF00
  | .rdcell _ => 0xFC00FFFF
  | .plot _ _ _ => 0xFF80C0FE
  | .tick => 0xFFFFFFFF

/-- The match value of the command's row. -/
def pattern : Instr → Word
  | .wrchar _ _ => 0x10000000
  | .rdcell _ => 0x20000000
  | .plot _ _ _ => 0x30000000
  | .tick => 0x80000000

/-- The command's word matches its row. -/
def Statement (i : Instr) : Prop := encode i &&& mask i = pattern i

theorem wrchar (ofs : BitVec 10) (code : Byte) : Statement (.wrchar ofs code) := by
  apply BitVec.eq_of_getLsbD_eq
  intro j hj
  interval_cases j <;> simp only [encode, mask, pattern, BitVec.getLsbD_and, BitVec.getLsbD_append] <;> simp

theorem rdcell (ofs : BitVec 10) : Statement (.rdcell ofs) := by
  apply BitVec.eq_of_getLsbD_eq
  intro j hj
  interval_cases j <;> simp only [encode, mask, pattern, BitVec.getLsbD_and, BitVec.getLsbD_append] <;> simp

theorem plot (x : BitVec 7) (y : BitVec 6) (on : Bool) : Statement (.plot x y on) := by
  apply BitVec.eq_of_getLsbD_eq
  intro j hj
  interval_cases j <;> simp only [encode, mask, pattern, BitVec.getLsbD_and, BitVec.getLsbD_append] <;> simp

theorem tick : Statement .tick := by
  unfold Statement
  decide

end Sys2Proof.Laws.TableRow
end

