-- ==== Sys2Proof/Tests/Slice0.lean ====
section
/-! SUPPORT. Tests on fixed values, each expected result taken from spec/95_test_vectors.md (the vector is named), and the
witnesses: for each statement with hypotheses, a concrete state and operands that meet them. -/

namespace Sys2Proof.Tests

open Sys2Proof Sys2Proof.Machine Sys2Proof.Statements

/-! ### Helpers -/

/-- What a step leaves, seen through an observer; none where the step stops. -/
def seen {α : Type} (f : State → α) : Result → Option α
  | .next s => some (f s)
  | .fault _ => none
  | .refused _ => none

/-- (PR, CR, GRB, FRP, FLM) and the number of events, as the vectors of 95 2.5 give them. -/
def scanOf (s : State) : Nat × Nat × Nat × Nat × Bool × Nat :=
  (s.pr.toNat, s.cr.toNat, s.grb.toNat, s.frp.toNat, s.flm, s.trace.length)

/-- The reset state with a scan state and a framebuffer. -/
def scanAt (pr : BitVec 4) (cr : BitVec 5) (grb : BitVec 12) (frp : BitVec 10) (flm : Bool) (fb : Memory) : State :=
  { State.reset with pr := pr, cr := cr, grb := grb, frp := frp, flm := flm, fb := fb }

/-! ### Legal operands (R92): terms the check refuses, and their neighbours that it accepts -/

theorem test_wellFormed_offset :
    (Instr.wrchar 799 0).WellFormed = true ∧ (Instr.wrchar 800 0).WellFormed = false ∧
    (Instr.rdcell 799).WellFormed = true ∧ (Instr.rdcell 800).WellFormed = false := by decide

theorem test_wellFormed_dot :
    (Instr.plot 79 59 true).WellFormed = true ∧ (Instr.plot 80 0 true).WellFormed = false ∧
    (Instr.plot 0 60 true).WellFormed = false ∧ Instr.tick.WellFormed = true := by decide

/-! ### Decoding (95 2.1) -/

theorem test_decode_wrchar :
    decode .host 0x10000041 = .command (.wrchar 0 0x41) ∧ decode .host 0x131F00FF = .command (.wrchar 799 0xFF) ∧
    decode .host 0x13200041 = .command (.wrchar 800 0x41) ∧ decode .host 0x13FF0000 = .command (.wrchar 1023 0) := by
  decide

theorem test_decode_wrchar_illegal :
    decode .host 0x1000FF41 = .illegal .reservedBits ∧ decode .host 0x14000041 = .illegal .reservedBits ∧
    decode .timer 0x10000041 = .illegal .wrongPort := by decide

theorem test_decode_rdcell :
    decode .host 0x20050000 = .command (.rdcell 5) ∧ decode .host 0x20050001 = .illegal .reservedBits := by decide

theorem test_decode_plot :
    decode .host 0x30003B01 = .command (.plot 0 59 true) ∧ decode .host 0x304F0001 = .command (.plot 79 0 true) ∧
    decode .host 0x30500001 = .command (.plot 80 0 true) ∧ decode .host 0x30003C01 = .command (.plot 0 60 true) ∧
    decode .host 0x307F3F01 = .command (.plot 127 63 true) := by decide

theorem test_decode_plot_illegal :
    decode .host 0x30803B01 = .illegal .reservedBits ∧ decode .host 0x30004001 = .illegal .reservedBits ∧
    decode .host 0x30003B03 = .illegal .reservedBits := by decide

theorem test_decode_tick :
    decode .timer 0x80000000 = .command .tick ∧ decode .host 0x80000000 = .illegal .wrongPort ∧
    decode .timer 0x80000001 = .illegal .reservedBits := by decide

theorem test_decode_reservedOp (p : Port) :
    decode p 0x00000000 = .illegal .reservedOp ∧ decode p 0x40000000 = .illegal .reservedOp ∧
    decode p 0x90000000 = .illegal .reservedOp ∧ decode p 0xFFFFFFFF = .illegal .reservedOp := by
  cases p <;> decide

/-- Words of 95 2.1, 2.6 (X2) and P2, from their commands. -/
theorem test_encode :
    encode (.wrchar 799 0x78) = 0x131F0078 ∧ encode (.rdcell 799) = 0x231F0000 ∧
    encode (.plot 0 59 false) = 0x30003B00 ∧ encode (.plot 79 0 true) = 0x304F0001 ∧ encode .tick = 0x80000000 := by
  decide

/-- The rows of the opcode table, each with operands of zeros, are read and run as the first command after RESET. -/
theorem test_tableWord_decodes :
    decodeTableWord 32 0x10000000 = some (.wrchar 0 0) ∧ decodeTableWord 32 0x20000000 = some (.rdcell 0) ∧
    decodeTableWord 32 0x30000000 = some (.plot 0 0 false) ∧ decodeTableWord 32 0x80000000 = some .tick ∧
    decodeTableWord 32 0x00000000 = none := by decide

theorem test_fetchWord_runs_wrchar :
    seen (fun s => s.fb) (step (State.reset.withFetchWord 32 0x131F00FF)) = some [(799, 0xFF)] := by decide

theorem test_fetchWord_runs_rdcell :
    seen (fun s => s.responses) (step (State.reset.withFetchWord 32 0x20000000)) = some [0x20] := by decide

theorem test_fetchWord_runs_tick :
    seen scanOf (step (State.reset.withFetchWord 32 0x80000000)) = some (11, 20, 256, 0, false, 242) := by decide +kernel

/-! ### WRCHAR and RDCELL (95 2.2) -/

/-- W1, W6: a byte written is the byte read back. -/
theorem test_W6_readBack :
    seen (fun s => (s.fb, s.responses)) (execAll [.wrchar 0 0x41, .rdcell 0] State.reset) = some ([(0, 0x41)], [0x41]) := by
  decide

/-- W3: writing a character replaces the dots; the blank cell is no longer listed (log 8). -/
theorem test_W3_replacesDots :
    seen (fun s => (s.fb, s.fb.read 3)) (exec (.wrchar 3 0x20) { State.reset with fb := [(3, 0xAA)] }) =
      some ([], some 0x20) := by decide

/-- W4: OFFSET_RANGE, framebuffer unchanged. -/
theorem test_W4_offsetRange :
    seen (fun s => (s.status, s.fb)) (exec (.wrchar 800 0x41) State.reset) = some ((true, 0b10), []) := by decide

/-- W7: OFFSET_RANGE, no response. -/
theorem test_W7_offsetRange :
    seen (fun s => (s.status, s.responses)) (exec (.rdcell 800) State.reset) = some ((true, 0b10), []) := by decide

/-! ### PLOT (95 2.3, 2.4) -/

/-- The table of 95 2.3, its first half. -/
theorem test_dotAddress_first :
    (dotOffset 0 59, dotBit 0 59) = (0, 0) ∧ (dotOffset 1 59, dotBit 1 59) = (0, 3) ∧
    (dotOffset 0 58, dotBit 0 58) = (0, 1) ∧ (dotOffset 0 57, dotBit 0 57) = (0, 2) ∧
    (dotOffset 1 57, dotBit 1 57) = (0, 5) ∧ (dotOffset 0 56, dotBit 0 56) = (40, 0) := by decide

/-- The table of 95 2.3, its second half. -/
theorem test_dotAddress_second :
    (dotOffset 79 59, dotBit 79 59) = (39, 3) ∧ (dotOffset 0 0, dotBit 0 0) = (760, 2) ∧
    (dotOffset 79 0, dotBit 79 0) = (799, 5) ∧ (dotOffset 2 3, dotBit 2 3) = (721, 2) ∧
    (dotOffset 40 30, dotBit 40 30) = (380, 2) ∧ (dotOffset 41 31, dotBit 41 31) = (380, 4) ∧
    (dotOffset 77 44, dotBit 77 44) = (238, 3) := by decide

/-- The inverse check of 95 2.3. -/
theorem test_dotAddress_inverse : (dotColumn 721 2, dotRow 721 2) = (2, 3) := by decide

/-- V1, V2, V4, V5, V6 with DOT_TAG = 0b10. -/
theorem test_plotWrites_tag10 :
    plotWrites .tag10 0x41 0 true = [0x80, 0x81] ∧ plotWrites .tag10 0x81 3 true = [0x89] ∧
    plotWrites .tag10 0x89 0 false = [0x88] ∧ plotWrites .tag10 0x20 0 false = [0x80, 0x80] ∧
    plotWrites .tag10 0xBF 5 false = [0x9F] := by decide

/-- V1, V2, V4, V9, V10 with DOT_TAG = 0b11. -/
theorem test_plotWrites_tag11 :
    plotWrites .tag11 0x41 0 true = [0xC0, 0xC1] ∧ plotWrites .tag11 0xC1 3 true = [0xC9] ∧
    plotWrites .tag11 0xC9 0 false = [0xC8] ∧ plotWrites .tag11 0x7F 4 true = [0xC0, 0xD0] ∧
    plotWrites .tag11 0x00 5 true = [0xC0, 0xE0] := by decide

/-- V7, V8: the same byte is a dot cell for one tag and a character cell for the other. -/
theorem test_plotWrites_tagDecides :
    plotWrites .tag10 0xBF 1 false = [0xBD] ∧ plotWrites .tag11 0xBF 1 false = [0xC0, 0xC0] ∧
    plotWrites .tag10 0xFF 1 false = [0x80, 0x80] ∧ plotWrites .tag11 0xFF 1 false = [0xFD] := by decide

/-- V11: PLOT_RANGE, nothing written. -/
theorem test_V11_plotRange :
    seen (fun s => (s.status, s.fb)) (exec (.plot 80 0 true) State.reset) = some ((true, 0b11), []) := by decide

/-! ### TICK (95 2.5); the glyph ROM stays open, so the address a vector reads is what is tested -/

/-- E1: a glyph byte 0x31 is the nibbles 3 and then 1, each with its CP pulse. -/
theorem test_E1_highNibbleFirst :
    columnEvents 0x31 =
      [.writeNibble 3, .assertLine .cp, .releaseLine .cp, .writeNibble 1, .assertLine .cp, .releaseLine .cp] := by decide

theorem test_T1_scan : seen scanOf (exec .tick State.reset) = some (11, 20, 256, 0, false, 242) := by decide +kernel

theorem test_T2_scan :
    seen scanOf (exec .tick (scanAt 1 20 2816 0 false [])) = some (12, 19, 0, 40, false, 242) := by decide +kernel

theorem test_T3_scan :
    seen scanOf (exec .tick (scanAt 1 1 2816 760 false [])) = some (12, 20, 0, 0, true, 243) := by decide +kernel

theorem test_T4_scan :
    seen scanOf (exec .tick (scanAt 12 20 0 0 true [])) = some (11, 20, 256, 0, false, 243) := by decide +kernel

/-- T3, T4: the marker's event is the last of its tick. -/
theorem test_T3_T4_marker :
    seen (fun s => s.trace.getLast?) (exec .tick (scanAt 1 1 2816 760 false [])) = some (some (.assertLine .flm)) ∧
    seen (fun s => s.trace.getLast?) (exec .tick (scanAt 12 20 0 0 true [])) = some (some (.releaseLine .flm)) := by
  decide +kernel

/-- T5: column 39 holds 0xFF and reads ROM address 3071. -/
theorem test_T5_lastAddress :
    seen (fun s => s.dout) (shiftColumn 39 (scanAt 1 20 2816 0 false [(39, 0xFF)])) =
      some ((Config.glyphRom 3071).extractLsb' 0 4) := rfl

/-- T6: a dot cell is looked up by its own code. -/
theorem test_T6_dotCell :
    seen (fun s => s.trace.head?) (shiftColumn 0 { State.reset with fb := [(0, 0x81)] }) =
      some (some (.writeNibble ((Config.glyphRom 0x81).extractLsb' 4 4))) := rfl

/-- T7: line 100 reads the cell at offset 320 on plane 4. -/
theorem test_T7_line100 :
    seen (fun s => s.trace.head?) (shiftColumn 0 (scanAt 8 12 1024 320 false [(320, 0x41)])) =
      some (some (.writeNibble ((Config.glyphRom 1089).extractLsb' 4 4))) := rfl

/-! ### Pseudo-operations (95 2.6) -/

theorem test_X1_X9_setcur :
    expand (.setcur 2 5) none = some ⟨some 85, []⟩ ∧ expand (.setcur 20 0) (some 7) = none := by decide

theorem test_X2_X3_putc :
    expand (.putc 0x78) (some 799) = some ⟨some 800, [.wrchar 799 0x78]⟩ ∧ expand (.putc 0x78) (some 800) = none := by
  decide

theorem test_X10_puts : expand (.puts [0]) (some 10) = some ⟨some 10, []⟩ := by decide

/-- P1 step 2. -/
theorem test_P1_puts :
    expand (.puts [0x41, 0x42, 0]) (some 38) = some ⟨some 40, [.wrchar 38 0x41, .wrchar 39 0x42]⟩ := by decide

theorem test_X5_drawbox :
    expand (.drawbox 18 38 2 2) none =
      some ⟨none, [.wrchar 758 Config.boxUL, .wrchar 759 Config.boxUR, .wrchar 799 Config.boxLR, .wrchar 798 Config.boxLL]⟩ :=
  rfl

theorem test_X6_X7_drawbox :
    expand (.drawbox 19 0 2 2) none = none ∧ expand (.drawbox 0 0 1 5) none = none := by decide

/-- P4: the offsets of DRAWBOX 2, 2, 5, 3 in order. -/
theorem test_P4_drawbox :
    boxCommands 2 2 5 3 =
      [.wrchar 82 Config.boxUL, .wrchar 83 Config.boxH, .wrchar 84 Config.boxH, .wrchar 85 Config.boxH,
       .wrchar 86 Config.boxUR, .wrchar 126 Config.boxV, .wrchar 166 Config.boxLR, .wrchar 122 Config.boxV,
       .wrchar 162 Config.boxLL, .wrchar 163 Config.boxH, .wrchar 164 Config.boxH, .wrchar 165 Config.boxH] := rfl

/-! ### Faults (95 2.7) -/

/-- F1, F6: an illegal word records ILLEGAL_COMMAND; decode is checked before the range. -/
theorem test_F1_F6_illegal :
    seen State.status (step { State.reset with hostPort := [.command 0x00000000] }) = some (true, 0b01) ∧
    seen State.status (step { State.reset with hostPort := [.command 0x30FF3F01] }) = some (true, 0b01) := by decide

/-- F4, F5: the first cause is kept, and the block goes on. -/
theorem test_F4_F5_firstCauseKept :
    seen State.status (step { State.reset with faulted := true, cause := .offsetRange, hostPort := [.command 0x40000000] }) =
      some (true, 0b10) ∧
    seen (fun s => (s.status, s.fb)) (exec (.wrchar 0 0x41) { State.reset with faulted := true, cause := .offsetRange }) =
      some ((true, 0b10), [(0, 0x41)]) := by decide

/-! ### Assembler lines (R91) -/

theorem test_assemble_command :
    assembleText "WRCHAR 0, 'A'".toList = some (.command (.wrchar 0 0x41)) ∧
    assembleText "PLOT 0, 0x3B, 1".toList = some (.command (.plot 0 59 true)) ∧
    assembleText "WRCHAR 1024, 0".toList = none := by decide

/-! ### Witnesses: a state and operands that meet each statement's hypotheses, at the ends of their ranges -/

/-- A state with a PLOT of dot (0, 59) about to run over the character 0x41, and a tick falling at each of its boundaries. -/
def plotState : State :=
  { State.reset with fb := [(0, 0x41)], turns := [.host, .timer 0x80000000, .host] }

theorem witness_DecodeOfEncodeIsTheCommand : Port.timer ≠ (Instr.wrchar 1023 0xFF).port := by decide

theorem witness_DecodedWordIsTheCommandsEncoding : decode .host 0x131F00FF = .command (.wrchar 799 0xFF) := by decide

theorem witness_OperandsAreTheUnsignedFieldsOfTheWord :
    decode .host 0x13FF00FF = .command (.wrchar 1023 0xFF) ∧ decode .host 0x23FF0000 = .command (.rdcell 1023) ∧
    decode .host 0x307F3F01 = .command (.plot 127 63 true) := by decide

theorem witness_OpFieldSelectsTheOperation :
    (0x00000000 : Word).toNat / 2 ^ 28 = 0 ∧ (0x40000000 : Word).toNat / 2 ^ 28 = 4 ∧
    (0x7FFFFFFF : Word).toNat / 2 ^ 28 = 7 ∧ (0x90000000 : Word).toNat / 2 ^ 28 = 9 ∧
    decode .timer 0x80000000 = .command .tick := by decide

theorem witness_SetReservedBitIsIllegal :
    ((0x14000041 : Word) &&& 0xF0000000 = 0x10000000 ∧ (0x14000041 : Word) &&& 0x0C00FF00 ≠ 0) ∧
    ((0x20050001 : Word) &&& 0xF0000000 = 0x20000000 ∧ (0x20050001 : Word) &&& 0x0C00FFFF ≠ 0) ∧
    ((0x30003B03 : Word) &&& 0xF0000000 = 0x30000000 ∧ (0x30003B03 : Word) &&& 0x0F80C0FE ≠ 0) ∧
    ((0x80000001 : Word) &&& 0xF0000000 = 0x80000000 ∧ (0x80000001 : Word) &&& 0x0FFFFFFF ≠ 0) := by decide

theorem witness_EachPortAcceptsItsOwnOperations :
    decode .timer 0x80000000 = .command .tick ∧ decode .host 0x20050000 = .command (.rdcell 5) := by decide

theorem witness_OutOfRangeOperandDecodesAndFaultsWhenExecuted :
    State.reset.faulted = false ∧ 800 ≤ (800#10).toNat ∧ 800 ≤ (1023#10).toNat ∧
    (80 ≤ (80#7).toNat ∨ 60 ≤ (0#6).toNat) ∧ (80 ≤ (0#7).toNat ∨ 60 ≤ (60#6).toNat) := by decide

theorem witness_StepRunsTheHostsNextCommand :
    (plotState.turns = [] ∨ plotState.turns.head? = some .host) ∧
    (State.reset.turns = [] ∨ State.reset.turns.head? = some .host) ∧
    ({ plotState with hostPort := [.command 0x30003B01] } : State).hostPort = .command 0x30003B01 :: [] ∧
    decode .host 0x30003B01 = .command (.plot 0 59 true) := by decide

theorem witness_StepRunsTheTimersCommand :
    ({ State.reset with turns := [.timer 0x80000000] } : State).turns = .timer 0x80000000 :: [] ∧
    decode .timer 0x80000000 = .command .tick := by decide

theorem witness_StepRecordsIllegalCommand :
    (State.reset.turns = [] ∨ State.reset.turns.head? = some .host) ∧
    ({ State.reset with hostPort := [.command 0x80000000] } : State).hostPort = .command 0x80000000 :: [] ∧
    decode .host 0x80000000 = .illegal .wrongPort ∧
    ({ State.reset with turns := [.timer 0x10000041] } : State).turns = .timer 0x10000041 :: [] ∧
    decode .timer 0x10000041 = .illegal .wrongPort := by decide

theorem witness_StepExpandsTheHostsPseudoOperation :
    (State.reset.turns = [] ∨ State.reset.turns.head? = some .host) ∧
    ({ State.reset with hostPort := [.pseudo (.setcur 2 5)] } : State).hostPort = .pseudo (.setcur 2 5) :: [] ∧
    expand (.setcur 2 5) State.reset.cursor = some ⟨some 85, []⟩ ∧
    ({ State.reset with hostPort := [.pseudo (.putc 0x78)] } : State).hostPort = .pseudo (.putc 0x78) :: [] ∧
    expand (.putc 0x78) State.reset.cursor = none := by decide

theorem witness_ResetSetsEveryPieceOfState :
    ({ State.reset with fb := [(0, 0x41)], faulted := true, cause := .plotRange, turns := [.reset] } : State).turns =
      .reset :: [] := by decide

theorem witness_BoundaryTakesTheTimersWords :
    ({ State.reset with turns := [.timer 0x80000000, .host] } : State).turns = .timer 0x80000000 :: [.host] ∧
    ({ State.reset with turns := [.host] } : State).turns = .host :: [] ∧ State.reset.turns = [] ∧
    ({ State.reset with turns := [.reset, .host] } : State).turns = .reset :: [.host] := by decide

theorem witness_WrcharStoresItsByteVerbatim :
    (0#10).toNat < 800 ∧ (799#10).toNat < 800 ∧ plotState.fb.wf = true ∧ 800 ≤ (800#10).toNat := by decide

theorem witness_RdcellRespondsTheRawByte :
    (0#10).toNat < 800 ∧ (799#10).toNat < 800 ∧ 800 ≤ (800#10).toNat ∧ 800 ≤ (1023#10).toNat := by decide

theorem witness_RepeatedWrcharIsOneWrchar : plotState.fb.wf = true := by decide

theorem witness_RdcellSeesTheLastWrite :
    (799#10).toNat < 800 ∧ (0#10).toNat < 800 ∧ plotState.fb.wf = true := by decide

theorem witness_PlotSetsOrClearsItsDot :
    ((79#7).toNat < 80 ∧ (59#6).toNat < 60 ∧ plotState.fb.wf = true ∧ plotState.ScanOk) ∧
    (80 ≤ (80#7).toNat ∨ 60 ≤ (59#6).toNat) ∧ (80 ≤ (79#7).toNat ∨ 60 ≤ (60#6).toNat) := by decide

theorem witness_UninterruptedPlotChangesOnlyTheFramebuffer :
    (79#7).toNat < 80 ∧ (0#6).toNat < 60 ∧ ∀ w, .timer w ∉ State.reset.turns := by
  refine ⟨by decide, by decide, fun w => ?_⟩
  simp [State.reset]

theorem witness_TickInsideAConvertingPlotSeesTheBlankDotCell :
    (0#7).toNat < 80 ∧ (59#6).toNat < 60 ∧ plotState.fb.wf = true ∧ plotState.ScanOk ∧
    plotState.fb.read (cellOf 0 59) = some 0x41 ∧ ¬hasDotTag 0x41 ∧
    plotState.turns = .host :: .timer 0x80000000 :: .host :: [] := by
  refine ⟨by decide, by decide, by decide, by decide, by decide, ?_, by decide⟩
  unfold hasDotTag
  cases Config.dotTag <;> decide

theorem witness_DotsAndCellBitsStandOneToOne : (79 < 80 ∧ 59 < 60) ∧ 799 < 800 ∧ 5 < 6 := by decide

theorem witness_RepeatedPlotLeavesTheFramebufferAlone : plotState.fb.wf = true ∧ plotState.ScanOk := by decide

theorem witness_PlotOnThenOffClearsTheDotOnly :
    (79#7).toNat < 80 ∧ (59#6).toNat < 60 ∧ plotState.fb.wf = true ∧ plotState.ScanOk := by decide

theorem witness_HostResultsDoNotDependOnTicks : plotState.ScanOk := by decide

/-- The scan premises hold at the top of a frame, with the marker released and asserted, and on its last line. -/
theorem witness_TickOutputsOneLineAndAdvancesTheScan :
    State.reset.ScanOk ∧ (scanAt 12 20 0 0 true []).ScanOk ∧ (scanAt 1 1 2816 760 false []).ScanOk := by decide

theorem witness_TickTraceHasItsShape : (scanAt 1 1 2816 760 false []).ScanOk := by decide

theorem witness_TickReadsOnlyTheCellsOfItsRow :
    (∀ c, c < 40 → Memory.read [(40, 0x42)] (State.reset.frp.toNat + c) = State.reset.fb.read (State.reset.frp.toNat + c)) ∧
    seen scanOf (exec .tick State.reset) = some (11, 20, 256, 0, false, 242) := by decide +kernel

/-- The first and the last line of a frame, each with the marker as it may stand there. -/
theorem witness_TickMovesToTheNextLine :
    (0 < 240 ∧ (scanAt 12 20 0 0 true []).AtLine 0) ∧ 239 < 240 ∧ (scanAt 1 1 2816 760 false []).AtLine 239 := by decide

theorem witness_ScanStateAfterAnyNumberOfTicks : State.reset.AtLine 0 ∧ State.reset.flm = false := by decide

theorem witness_FrameHasOneMarkerAndEndsWithIt :
    State.reset.AtLine 0 ∧ (scanAt 12 20 0 0 true []).AtLine 0 := by decide

theorem witness_TickRendersTheGlyphBytesOfItsLine : (scanAt 8 12 1024 320 false [(320, 0x41)]).ScanOk := by decide

theorem witness_FrameIsTheFramebufferThroughTheGlyphTable : plotState.AtLine 0 := by decide

theorem witness_TickShowsTheByteWrittenBeforeIt :
    (scanAt 1 1 2816 760 false []).fb.wf = true ∧ (scanAt 1 1 2816 760 false []).ScanOk ∧ 39 < 40 ∧
    (799#10).toNat = (scanAt 1 1 2816 760 false []).frp.toNat + 39 := by decide

theorem witness_HostReachesNeitherScanStateNorLines :
    (∀ turn ∈ ({ State.reset with turns := [.host] } : State).turns, turn = .host) ∧
    seen (fun s => s.fb) (step { State.reset with turns := [.host], hostPort := [.command 0x10000041] }) =
      some [(0, 0x41)] := by decide

theorem witness_TimerReachesNeitherFramebufferNorHost :
    ({ State.reset with turns := [.timer 0x80000000] } : State).turns = .timer 0x80000000 :: [] ∧
    seen scanOf (step { State.reset with turns := [.timer 0x80000000] }) = some (11, 20, 256, 0, false, 242) := by decide +kernel

theorem witness_StatusKeepsItsFirstCauseUntilReset :
    ({ State.reset with faulted := true, cause := .offsetRange, hostPort := [.command 0x40000000] } : State).faulted = true ∧
    ({ State.reset with faulted := true, cause := .offsetRange, hostPort := [.command 0x40000000] } : State).turns.head? ≠
      some .reset ∧
    seen State.status (step { State.reset with faulted := true, cause := .offsetRange, hostPort := [.command 0x40000000] }) =
      some (true, 0b10) := by decide

theorem witness_LegalCommandsRaiseNoFault :
    (Instr.plot 79 59 true).WellFormed = true ∧ (Instr.wrchar 799 0xFF).WellFormed = true ∧ Instr.tick.WellFormed = true ∧
    plotState.ScanOk ∧ ∀ w, .timer w ∈ plotState.turns → w = 0x80000000 := by
  refine ⟨by decide, by decide, by decide, by decide, fun w h => ?_⟩
  simpa [plotState] using h

/-- The state of plotState with a fault recorded, CURSOR at its end and the PLOT's word on its way. -/
def busyState : State :=
  { plotState with faulted := true, cause := .plotRange, cursor := some 800, hostPort := [.command 0x30003B01] }

theorem witness_inv : busyState.Inv :=
  ⟨by decide, by decide, by decide, by decide, fun c h => by
    obtain rfl : 800 = c := by simpa [busyState] using h
    decide⟩

/-- The step from there runs the PLOT with a tick inside it. -/
theorem witness_StepKeepsTheInvariant :
    busyState.Inv ∧ seen (fun s => (s.pr, s.turns)) (step busyState) = some (11, []) :=
  ⟨witness_inv, by decide +kernel⟩

theorem witness_StepFromTheInvariantNeverStops : busyState.Inv := witness_inv

theorem witness_LinesFollowTheTrace :
    (emit (.assertLine .cp) State.reset).LinesFollowTrace ∧
    seen (fun s => s.trace) (step (emit (.assertLine .cp) State.reset)) = some [.assertLine .cp] :=
  ⟨⟨Config.doutReset, rfl, rfl, rfl, rfl⟩, by decide⟩

/-- Two ticks after RESET, at line 2, with a third about to be taken. -/
def thirdTickState : State :=
  { scanAt 10 20 512 0 false [] with
    trace := [.assertLine .lp, .releaseLine .lp, .assertLine .lp, .releaseLine .lp], turns := [.timer 0x80000000] }

theorem witness_ScanStateFollowsTheTrace :
    thirdTickState.ScanFollowsTrace ∧ seen scanOf (step thirdTickState) = some (9, 20, 768, 0, false, 246) :=
  ⟨by decide, by decide +kernel⟩

theorem witness_BlankingEveryOffsetGivesTheResetFramebuffer : Memory.wf [(0, 0x41), (799, 0xFF)] = true := by decide

theorem witness_SetcurSetsTheCursorAndIssuesNothing :
    (19 ≤ 19 ∧ 39 ≤ 39) ∧ (20 ≤ 20 ∨ 40 ≤ 0) ∧ (20 ≤ 0 ∨ 40 ≤ 40) := by decide

theorem witness_PutcStoresAtTheCursorAndAdvancesIt : 799 < 800 ∧ 800 ≤ 800 := by decide

theorem witness_PutsStoresTheBytesBeforeTheZero :
    ([0, 0x41] : List Byte).takeWhile (· ≠ 0) = [] ∧ ([0x41, 0x42, 0] : List Byte).takeWhile (· ≠ 0) ≠ [] ∧
    800 < 799 + (([0x41, 0x42, 0] : List Byte).takeWhile (· ≠ 0)).length ∧
    798 + (([0x41, 0x42, 0] : List Byte).takeWhile (· ≠ 0)).length ≤ 800 := by decide

/-- A state about to expand PUTS of two bytes and their terminating zero at the last two offsets. -/
def putsState : State :=
  { plotState with turns := [], cursor := some 798, hostPort := [.pseudo (.puts [0x41, 0x42, 0])] }

theorem witness_PutsReachesTheFramebuffer :
    putsState.fb.wf = true ∧ putsState.turns = [] ∧ putsState.hostPort = .pseudo (.puts [0x41, 0x42, 0]) :: [] ∧
    putsState.cursor = some 798 ∧ 798 + (([0x41, 0x42, 0] : List Byte).takeWhile (· ≠ 0)).length ≤ 800 := by decide

/-- A smallest box in the last corner, and the largest box. -/
theorem witness_DrawboxLeavesItsOutline :
    plotState.fb.wf = true ∧ (2 ≤ 2 ∧ 2 ≤ 2 ∧ 18 + 2 ≤ 20 ∧ 38 + 2 ≤ 40) ∧
    (2 ≤ 40 ∧ 2 ≤ 20 ∧ 0 + 20 ≤ 20 ∧ 0 + 40 ≤ 40) := by
  decide

theorem witness_DrawboxIssuesDistinctStoresInOrder :
    (2 ≤ 2 ∧ 2 ≤ 2 ∧ 18 + 2 ≤ 20 ∧ 38 + 2 ≤ 40) ∧
    (2 ≤ 40 ∧ 2 ≤ 20 ∧ 0 + 20 ≤ 20 ∧ 0 + 40 ≤ 40) := by decide

theorem witness_AssemblerRefusesExactlyWhatDoesNotFit :
    (1023 < 1024 ∧ 255 < 256) ∧ ¬(1024 < 1024 ∧ 0 < 256) ∧ ¬(0 < 1024 ∧ 256 < 256) ∧ ¬1024 < 1024 ∧
    (127 < 128 ∧ 63 < 64 ∧ 1 < 2) ∧ ¬(128 < 128 ∧ 0 < 64 ∧ 0 < 2) ∧ ¬(0 < 128 ∧ 64 < 64 ∧ 0 < 2) ∧
    ¬(0 < 128 ∧ 0 < 64 ∧ 2 < 2) := by decide

end Sys2Proof.Tests
end

section
/-! PROOFS. The host's side of a step (00_scope.md R5): a pseudo-operation becomes command words in one step, and the words
of a text reach the framebuffer, one step for each byte. -/

namespace Sys2Proof.Machine

/-! ### The host's turn (R62) -/

/-- It is the host's turn where the list of turns says so or is empty (log 2). -/
abbrev State.HostsTurn (s : State) : Prop := s.turns = [] ∨ s.turns.head? = some .host

theorem step_of_hostsTurn {s : State} (h : s.HostsTurn) : step s = hostMove s := by
  obtain hnil | hhead := h
  · simp [step, hnil]
  · obtain ⟨later, hturns⟩ := List.head?_eq_some_iff.1 hhead
    simp [step, hturns]

theorem hostMove_pseudo {s : State} {p : PseudoOp} {rest : List HostItem} (hq : s.hostPort = .pseudo p :: rest) :
    hostMove s = .next (runPseudo p rest s) := by
  simp [hostMove, hq]

theorem hostMove_command {s : State} {w : Word} {rest : List HostItem} (hq : s.hostPort = .command w :: rest) :
    hostMove s = portWord .host w { s with hostPort := rest, turns := s.turns.tail } := by
  simp [hostMove, hq]

theorem portWord_of_decode {p : Port} {w : Word} {i : Instr} (hd : decode p w = .command i) (s : State) :
    portWord p w s = exec i s := by
  simp [portWord, hd]

/-- The words of a list of commands, as they wait on the host port. -/
def commandWords (is : List Instr) : List HostItem := is.map fun i => .command (encode i)

theorem runPseudo_of_expand {p : PseudoOp} {s : State} {e : Expansion} (he : expand p s.cursor = some e)
    (rest : List HostItem) :
    runPseudo p rest s = { s with cursor := e.cursor, hostPort := commandWords e.commands ++ rest } := by
  simp [runPseudo, he, commandWords]

theorem runPseudo_of_refused {p : PseudoOp} {s : State} (he : expand p s.cursor = none) (rest : List HostItem) :
    runPseudo p rest s = { s with hostPort := rest, refusedOps := s.refusedOps ++ [p] } := by
  simp [runPseudo, he]

/-- The host's next pseudo-operation is expanded in one step, which moves nothing of the block (R5). -/
theorem step_pseudo {s : State} {p : PseudoOp} {rest : List HostItem} (ht : s.HostsTurn)
    (hq : s.hostPort = .pseudo p :: rest) : step s = .next (runPseudo p rest s) := by
  rw [step_of_hostsTurn ht, hostMove_pseudo hq]

/-- The host's next word runs the command it decodes to, and uses up the turn (R80, R86). -/
theorem step_hostCommand {s : State} {w : Word} {rest : List HostItem} {i : Instr} (ht : s.HostsTurn)
    (hq : s.hostPort = .command w :: rest) (hd : decode .host w = .command i) :
    step s = exec i { s with hostPort := rest, turns := s.turns.tail } := by
  rw [step_of_hostsTurn ht, hostMove_command hq, portWord_of_decode hd]

/-- Settles O14: by `step_pseudo` the step is `runPseudo`, whose two cases are the accepted and the refused expansion. -/
theorem stepExpandsTheHostsPseudoOperation : Obligations.StepExpandsTheHostsPseudoOperation := by
  intro s p rest ht hq
  have hstep : step s = .next (runPseudo p rest s) := step_pseudo ht hq
  constructor
  · intro e he
    rw [hstep, runPseudo_of_expand he]
    rfl
  · intro he
    rw [hstep, runPseudo_of_refused he]

/-! ### The word of a WRCHAR decodes to it (R81, R86) -/

theorem opField_encode_wrchar (ofs : BitVec 10) (code : Byte) : opField (encode (.wrchar ofs code)) = 0b0001#4 := by
  simp only [opField, encode, BitVec.extractLsb'_append_eq_of_le, Nat.reduceLeDiff, Nat.reduceSub,
    BitVec.extractLsb'_eq_self]

theorem ofsField_encode_wrchar (ofs : BitVec 10) (code : Byte) : ofsField (encode (.wrchar ofs code)) = ofs := by
  simp only [ofsField, encode, BitVec.extractLsb'_append_eq_of_le, Nat.reduceLeDiff, Nat.reduceSub,
    BitVec.extractLsb'_append_eq_right]

theorem codeField_encode_wrchar (ofs : BitVec 10) (code : Byte) : codeField (encode (.wrchar ofs code)) = code :=
  BitVec.extractLsb'_append_eq_right

theorem reservedClearW_encode_wrchar (ofs : BitVec 10) (code : Byte) :
    reservedClearW (encode (.wrchar ofs code)) = true := by
  have hhigh : (encode (.wrchar ofs code)).extractLsb' 26 2 = 0#2 := by
    simp only [encode, BitVec.extractLsb'_append_eq_of_le, Nat.reduceLeDiff, Nat.reduceSub,
      BitVec.extractLsb'_append_eq_right]
  have hlow : (encode (.wrchar ofs code)).extractLsb' 8 8 = 0#8 := by
    simp only [encode, BitVec.extractLsb'_append_eq_of_le, Nat.reduceLeDiff, Nat.reduceSub,
      BitVec.extractLsb'_append_eq_right]
  simp [reservedClearW, hhigh, hlow]

theorem decode_encode_wrchar (ofs : BitVec 10) (code : Byte) :
    decode .host (encode (.wrchar ofs code)) = .command (.wrchar ofs code) := by
  have hword : decodeWord (encode (.wrchar ofs code)) = .command (.wrchar ofs code) := by
    simp [decodeWord, opField_encode_wrchar, reservedClearW_encode_wrchar, ofsField_encode_wrchar,
      codeField_encode_wrchar]
  simp [decode, hword, Instr.port]

/-! ### A text on its way to the framebuffer (R172, R173) -/

/-- The WRCHARs of a text, at consecutive offsets from c. -/
def textStores (c : Nat) (text : List Byte) : List Instr := text.mapIdx fun j b => storeAt (c + j) b

@[simp] theorem textStores_nil (c : Nat) : textStores c [] = [] := rfl

@[simp] theorem textStores_cons (c : Nat) (b : Byte) (text : List Byte) :
    textStores c (b :: text) = storeAt c b :: textStores (c + 1) text := by
  simp [textStores, List.mapIdx_cons, Nat.add_assoc, Nat.add_comm 1]

/-- The memory with a text at consecutive offsets from c. -/
def Memory.setText : Memory → Nat → List Byte → Memory
  | m, _, [] => m
  | m, c, b :: text => Memory.setText (m.set c b) (c + 1) text

/-- The text covers only the offsets it stands at. -/
theorem Memory.read_setText_outside {m : Memory} {c a : Nat} {text : List Byte} (h : a < c ∨ c + text.length ≤ a) :
    (m.setText c text).read a = m.read a := by
  induction text generalizing m c with
  | nil => rfl
  | cons b text ih =>
    simp only [List.length_cons] at h
    rw [Memory.setText, ih (by omega), Memory.read_set_other (by omega)]

/-- Each byte of a text that fits stands at its offset. -/
theorem Memory.read_setText_inside {m : Memory} (hm : m.wf = true) {c j : Nat} {text : List Byte}
    (hfit : c + text.length ≤ 800) (hj : j < text.length) : (m.setText c text).read (c + j) = text[j]? := by
  induction text generalizing m c j with
  | nil => simp at hj
  | cons b text ih =>
    simp only [List.length_cons] at hfit hj
    have hc : c < Config.fbSize := by simp only [Config.fbSize]; omega
    cases j with
    | zero => simpa [Memory.setText, Memory.read_setText_outside] using Memory.read_set_same hm hc b
    | succ j =>
      have hrest := ih (Memory.wf_set hm hc b) (c := c + 1) (j := j) (by omega) (by omega)
      simpa [Memory.setText, Nat.add_assoc, Nat.add_comm 1] using hrest

/-- A PUTC within the framebuffer is one store at CURSOR (R172). -/
theorem expandPutc_of_lt {c : Nat} (hc : c < 800) (b : Byte) :
    expandPutc b (some c) = some ⟨some (c + 1), [storeAt c b]⟩ := by
  simp [expandPutc, hc]

/-- A PUTS whose text fits from CURSOR is the stores of its text, and CURSOR moves past them (R173). -/
theorem expandPuts_of_fits {str : List Byte} {c : Nat} (hfit : c + (str.takeWhile (· ≠ 0)).length ≤ 800) :
    expandPuts str (some c) =
      some ⟨some (c + (str.takeWhile (· ≠ 0)).length), textStores c (str.takeWhile (· ≠ 0))⟩ := by
  induction str generalizing c with
  | nil => rfl
  | cons b str ih =>
    by_cases hb : b = 0
    · simp [expandPuts, hb]
    · rw [List.takeWhile_cons_of_pos (by simpa using hb), List.length_cons] at hfit ⊢
      rw [expandPuts, if_neg hb, expandPutc_of_lt (by omega) b]
      simp only [ih (c := c + 1) (by omega), textStores_cons, List.singleton_append, Nat.add_assoc, Nat.add_comm 1]

/-! ### The text reaches the framebuffer (R5, R100) -/

theorem exec_storeAt {a : Nat} (ha : a < 800) (b : Byte) (s : State) :
    exec (storeAt a b) s = .next { s with fb := s.fb.set a b } := by
  have hofs : (BitVec.ofNat 10 a).toNat = a := by simp; omega
  have hexec := execWrchar_legal (ofs := BitVec.ofNat 10 a) (by omega) b s
  rwa [hofs] at hexec

theorem core_run_succ {s t : State} (h : step s = .next t) (k : Nat) :
    Host.Core.run core (k + 1) s = Host.Core.run core k t := by
  have hcore : core.step s = .next t := h
  simp only [Host.Core.run, hcore]

/-- With no turn standing in the way the host's next store takes one step (log 1, log 2). -/
theorem step_storeAt {s : State} {a : Nat} {b : Byte} {rest : List HostItem} (ha : a < 800) (ht : s.turns = [])
    (hq : s.hostPort = .command (encode (storeAt a b)) :: rest) :
    step s = .next { s with fb := s.fb.set a b, hostPort := rest } := by
  rw [step_hostCommand (.inl ht) hq (decode_encode_wrchar _ b), ← storeAt, exec_storeAt ha]
  simp [ht]

/-- With no turn standing in the way the words of a text that fits take one step each, and leave the text in the
framebuffer and nothing else changed (log 1, log 2). -/
theorem run_textStores {s : State} {c : Nat} {text : List Byte} {rest : List HostItem} (ht : s.turns = [])
    (hq : s.hostPort = commandWords (textStores c text) ++ rest) (hfit : c + text.length ≤ 800) :
    Host.Core.run core text.length s = .next { s with fb := s.fb.setText c text, hostPort := rest } := by
  induction text generalizing s c with
  | nil =>
    obtain rfl : s.hostPort = rest := hq
    rfl
  | cons b text ih =>
    simp only [List.length_cons] at hfit
    rw [textStores_cons] at hq
    have hfirst := step_storeAt (by omega) ht hq
    exact (core_run_succ hfirst _).trans (ih ht rfl (by omega))

/-- Settles O50: the first step expands the PUTS into the stores of its text, and the others are `run_textStores`. -/
theorem putsReachesTheFramebuffer : Obligations.PutsReachesTheFramebuffer := by
  intro s str rest c text hwf ht hq hcur hfit
  have hexp : expand (.puts str) s.cursor = some ⟨some (c + text.length), textStores c text⟩ := by
    rw [hcur]
    exact expandPuts_of_fits hfit
  have hstep := step_pseudo (.inl ht) hq
  rw [runPseudo_of_expand hexp] at hstep
  refine ⟨{ s with fb := s.fb.setText c text, cursor := some (c + text.length), hostPort := rest }, ?_, ?_, ?_, rfl⟩
  · rw [core_run_succ hstep]
    exact run_textStores ht rfl hfit
  · exact fun j hj => Memory.read_setText_inside hwf hfit hj
  · exact fun a ha => Memory.read_setText_outside ha

end Sys2Proof.Machine
end

section
/-! PROOFS. The rules of the whole machine's state (10_state.md): the values right after RESET, the invariant every step keeps,
the output lines as the trace makes them, and what the host's and the Timer's moves do not reach. -/

namespace Sys2Proof.Machine

/-! ### The values of RESET (R38) -/

/-- Settles O45: the listed part of the framebuffer is empty, and every other value is the one State.reset names. -/
theorem resetValuesAreTheCollectedOnes : Obligations.ResetValuesAreTheCollectedOnes := by
  have hblank : ∀ a, a < 800 → State.reset.fb.read a = some Config.blankCode := fun _ ha => Memory.read_mapped ha
  exact ⟨hblank, rfl, rfl, rfl, rfl, rfl, rfl, rfl, rfl, rfl⟩

/-- RESET leaves the whole block as the invariant wants it, and CURSOR as it was (R230). -/
theorem applyReset_inv {s : State} (hcur : s.CursorOk) : (applyReset s).Inv where
  fb := rfl
  scan := (by decide : State.reset.ScanOk)
  strobes := ⟨rfl, rfl⟩
  status := (by decide : State.reset.StatusOk)
  cursor := hcur

/-- Settles O41: State.reset is the RESET of itself, and its CURSOR is undefined. -/
theorem resetStateHasTheInvariant : Obligations.ResetStateHasTheInvariant := by
  have hcur : State.reset.CursorOk := fun _ hc => nomatch hc
  exact applyReset_inv hcur

/-! ### CURSOR stays at most 800 (R171, R172) -/

/-- CURSOR, where it is defined, is at most 800. -/
abbrev CursorInRange (cursor : Option Nat) : Prop := ∀ c, cursor = some c → c ≤ 800

theorem expandSetcur_cursorInRange {row col : Nat} {e : Expansion} (he : expandSetcur row col = some e) :
    CursorInRange e.cursor := by
  unfold expandSetcur at he
  split at he
  case isTrue hin =>
    obtain rfl := Option.some.inj he
    rintro c hc
    simp only [Option.some.injEq, Config.charRows, Config.charCols] at hc hin
    omega
  case isFalse => simp at he

theorem expandPutc_cursorInRange {b : Byte} {cursor : Option Nat} {e : Expansion}
    (he : expandPutc b cursor = some e) : CursorInRange e.cursor := by
  cases cursor with
  | none => simp [expandPutc] at he
  | some c =>
    by_cases hc : c < 800
    · rw [expandPutc_of_lt hc] at he
      obtain rfl := Option.some.inj he
      rintro d hd
      simp only [Option.some.injEq] at hd
      omega
    · simp [expandPutc, hc] at he

/-- A PUTS moves CURSOR by its PUTCs only (R173). -/
theorem expandPuts_cursorInRange {str : List Byte} {cursor : Option Nat} {e : Expansion}
    (hcur : CursorInRange cursor) (he : expandPuts str cursor = some e) : CursorInRange e.cursor := by
  induction str generalizing cursor e with
  | nil =>
    obtain rfl := Option.some.inj he
    exact hcur
  | cons b str ih =>
    unfold expandPuts at he
    split at he
    · obtain rfl := Option.some.inj he
      exact hcur
    · split at he
      · simp at he
      · next first hfirst =>
        split at he
        · simp at he
        · next others hothers =>
          obtain rfl := Option.some.inj he
          exact ih (e := others) (expandPutc_cursorInRange hfirst) hothers

theorem expand_cursorInRange {p : PseudoOp} {cursor : Option Nat} {e : Expansion} (hcur : CursorInRange cursor)
    (he : expand p cursor = some e) : CursorInRange e.cursor := by
  cases p with
  | setcur row col => exact expandSetcur_cursorInRange he
  | putc b => exact expandPutc_cursorInRange he
  | puts str => exact expandPuts_cursorInRange hcur he
  | drawbox r c w h =>
    simp only [expand, expandDrawbox, Option.ite_none_right_eq_some, Option.some.injEq] at he
    obtain ⟨-, rfl⟩ := he
    exact hcur

/-! ### The invariant is kept by every step -/

theorem State.Inv.raiseFault {s : State} (hs : s.Inv) {c : Cause} (hc : c ≠ .noFault) : (raiseFault c s).Inv := by
  unfold Machine.raiseFault
  split
  · exact hs
  · exact { hs with status := by simp [State.StatusOk, hc] }

theorem State.Inv.runTick {s t : State} (hs : s.Inv) (h : runTick s = .next t) : t.Inv where
  fb := runTick_fb h ▸ hs.fb
  scan := runTick_scanOk h hs.scan
  strobes := runTick_strobes h
  status := by simpa [State.StatusOk, runTick_faulted h, runTick_cause h] using hs.status
  cursor := by simpa [State.CursorOk, runTick_cursor h] using hs.cursor

/-- Everything a step can do keeps the invariant. -/
theorem kept_inv : Kept State.Inv where
  turns := fun _ _ hs => { hs with }
  fault := fun _ hs => hs.raiseFault (by decide)
  tick := fun _ _ hs ht => hs.runTick ht
  anyFault := fun _ _ hc hs => hs.raiseFault hc
  write := fun _ v _ ha hs => { hs with fb := Memory.wf_set hs.fb ha v }
  respond := fun _ _ hs => { hs with }
  queue := fun _ _ hs => { hs with }
  expanded := fun _ _ _ he hs => { hs with cursor := expand_cursorInRange hs.cursor he }
  refuse := fun _ _ hs => { hs with }
  reset := fun _ hs => applyReset_inv hs.cursor

/-- Settles O42: a step is made of the parts that `kept_inv` names. -/
theorem stepKeepsTheInvariant : Obligations.StepKeepsTheInvariant := fun _ _ hs h => kept_inv.step hs h

/-! ### The output lines are what the trace makes them (R35, R130) -/

/-- An event moves its line and stands at the end of the trace, so the lines still follow the trace. -/
theorem State.LinesFollowTrace.emit {s : State} (hs : s.LinesFollowTrace) (e : BusEvent) :
    (emit e s).LinesFollowTrace := by
  obtain ⟨d, hdout, hcp, hlp, hflm⟩ := hs
  refine ⟨d, ?_⟩
  have hreplay : driveAll (Machine.emit e s).trace { State.reset with dout := d } =
      driveLines e (driveAll s.trace { State.reset with dout := d }) := by
    simp [driveAll]
  rw [hreplay]
  rcases e with _ | ⟨⟨⟩⟩ | ⟨⟨⟩⟩ <;> simp [hdout, hcp, hlp, hflm]

theorem State.LinesFollowTrace.emitAll {s : State} (hs : s.LinesFollowTrace) (es : List BusEvent) :
    (emitAll es s).LinesFollowTrace := by
  induction es generalizing s with
  | nil => exact hs
  | cons e es ih => exact ih (hs.emit e)

theorem State.LinesFollowTrace.releaseMarker {s : State} (hs : s.LinesFollowTrace) :
    (releaseMarker s).LinesFollowTrace := by
  unfold Machine.releaseMarker
  split
  · exact hs.emit _
  · exact hs

/-- At the end of a frame FLM goes with its event, and otherwise only scan registers move (R131 step 5). -/
theorem State.LinesFollowTrace.countLine {s : State} (hs : s.LinesFollowTrace) : (countLine s).LinesFollowTrace := by
  simp only [Machine.countLine, nextRow]
  split
  · split
    · exact State.LinesFollowTrace.emit (s := { s with pr := 12, grb := 0, frp := s.frp + 40, cr := 20 }) hs _
    · exact hs
  · exact hs

theorem State.LinesFollowTrace.finishLine {s : State} (hs : s.LinesFollowTrace) : (finishLine s).LinesFollowTrace := by
  have hplane : (nextPlane (loadLine s)).LinesFollowTrace := hs.emitAll [.assertLine .lp, .releaseLine .lp]
  exact hplane.releaseMarker.countLine

theorem State.LinesFollowTrace.runTick {s t : State} (hs : s.LinesFollowTrace) (h : runTick s = .next t) :
    t.LinesFollowTrace := by
  rw [runTick_next h]
  exact (hs.emitAll _).finishLine

theorem State.LinesFollowTrace.raiseFault {s : State} (hs : s.LinesFollowTrace) (c : Cause) :
    (raiseFault c s).LinesFollowTrace := by
  simpa [State.LinesFollowTrace] using hs

/-- RESET releases the lines and empties the trace; DOUT then has the level the replay starts from (R35). -/
theorem applyReset_linesFollowTrace (s : State) : (applyReset s).LinesFollowTrace :=
  ⟨Config.doutReset, rfl, rfl, rfl, rfl⟩

/-- No part of a step moves a line without its event, or records an event without its line. -/
theorem kept_linesFollowTrace : Kept State.LinesFollowTrace where
  turns := fun _ _ hs => hs
  fault := fun _ hs => hs.raiseFault _
  tick := fun _ _ hs ht => hs.runTick ht
  anyFault := fun c _ _ hs => hs.raiseFault c
  write := fun _ _ _ _ hs => hs
  respond := fun _ _ hs => hs
  queue := fun _ _ hs => hs
  expanded := fun _ _ _ _ hs => hs
  refuse := fun _ _ hs => hs
  reset := fun s _ => applyReset_linesFollowTrace s

/-- Settles O44: `applyReset_linesFollowTrace` at RESET, and `kept_linesFollowTrace` for every step. -/
theorem linesFollowTheTrace : Obligations.LinesFollowTheTrace :=
  ⟨applyReset_linesFollowTrace State.reset, fun _ _ hs h => kept_linesFollowTrace.step hs h⟩

/-! ### What the host does not reach (R34, R35) -/

/-- Two states with the same scan state, output lines and trace. -/
abbrev State.SameScanAndLines (t s : State) : Prop :=
  t.pr = s.pr ∧ t.cr = s.cr ∧ t.grb = s.grb ∧ t.frp = s.frp ∧ t.flm = s.flm ∧ t.dout = s.dout ∧ t.cp = s.cp ∧
    t.lp = s.lp ∧ t.trace = s.trace

theorem State.SameScanAndLines.refl (s : State) : s.SameScanAndLines s := ⟨rfl, rfl, rfl, rfl, rfl, rfl, rfl, rfl, rfl⟩

theorem raiseFault_sameScanAndLines (c : Cause) (s : State) : (raiseFault c s).SameScanAndLines s := by
  simp [State.SameScanAndLines]

theorem runPseudo_sameScanAndLines (p : PseudoOp) (rest : List HostItem) (s : State) :
    (runPseudo p rest s).SameScanAndLines s := by
  unfold runPseudo
  split <;> exact .refl s

/-- A port accepts the commands of its own only (R90). -/
theorem port_of_decode {p : Port} {w : Word} {i : Instr} (h : decode p w = .command i) : i.port = p := by
  unfold decode at h
  split at h
  · split at h
    case isTrue hport =>
      obtain rfl := Decoded.command.inj h
      exact hport
    case isFalse => simp at h
  · simp at h

/-- Micro-operations among which the Timer presents nothing move only the framebuffer and the turns. -/
theorem runMicroOps_quiet {op : MicroOp} {ops : List MicroOp} (ho : ∀ o ∈ op :: ops, o.Mapped) {s t : State}
    (hq : ∀ w, .timer w ∉ s.turns) (h : runMicroOps (op :: ops) s = .next t) : t.SameScanAndLines s := by
  obtain ⟨u, hu, hrest⟩ := andThen_next h
  obtain ⟨hops, hsame⟩ : (∀ w, .timer w ∉ u.turns) ∧ u.SameScanAndLines s := by
    obtain ⟨a, -, -, rfl⟩ | ⟨a, v, -, -, rfl⟩ := runMicroOp_next hu
    · exact ⟨hq, .refl _⟩
    · exact ⟨hq, .refl _⟩
  obtain ⟨ts, hrun, -⟩ := runRest_quiet (fun o hm => ho o (List.mem_cons_of_mem _ hm)) hops
  rw [hrun, Host.Outcome.next.injEq] at hrest
  exact hrest ▸ hsame

/-- A command of the host port inside which the Timer presents nothing reaches neither scan state nor lines. -/
theorem exec_host_sameScanAndLines {i : Instr} (hi : i.port = .host) {s t : State} (hq : ∀ w, .timer w ∉ s.turns)
    (h : exec i s = .next t) : t.SameScanAndLines s := by
  cases i with
  | wrchar ofs code =>
    by_cases hofs : ofs.toNat < 800
    · obtain rfl := Host.Outcome.next.inj ((execWrchar_legal hofs code s).symm.trans h)
      exact .refl s
    · obtain rfl := Host.Outcome.next.inj ((execWrchar_range (by omega) code s).symm.trans h)
      exact raiseFault_sameScanAndLines _ s
  | rdcell ofs =>
    by_cases hofs : ofs.toNat < 800
    · obtain rfl := Host.Outcome.next.inj ((execRdcell_legal hofs s).symm.trans h)
      exact .refl s
    · obtain rfl := Host.Outcome.next.inj ((execRdcell_range (by omega) s).symm.trans h)
      exact raiseFault_sameScanAndLines _ s
  | plot x y on =>
    by_cases hdot : x.toNat < 80 ∧ y.toNat < 60
    · obtain ⟨hx, hy⟩ := hdot
      exact runMicroOps_quiet (plotMicroOps_mapped (dotOffset_mapped hx)) hq ((execPlot_legal hx hy on s).symm.trans h)
    · obtain rfl := Host.Outcome.next.inj ((execPlot_range (by omega) on s).symm.trans h)
      exact raiseFault_sameScanAndLines _ s
  | tick => simp [Instr.port] at hi

/-- A word on the host port, whether it decodes or not, reaches neither scan state nor lines. -/
theorem portWord_host_sameScanAndLines {w : Word} {s t : State} (hq : ∀ w, .timer w ∉ s.turns)
    (h : portWord .host w s = .next t) : t.SameScanAndLines s := by
  unfold portWord at h
  split at h
  · next i hd => exact exec_host_sameScanAndLines (port_of_decode hd) hq h
  · obtain rfl := Host.Outcome.next.inj h
    exact raiseFault_sameScanAndLines _ s

/-- Settles O37: with host turns only a step is `hostMove`, and none of its three cases reaches scan state or lines. -/
theorem hostReachesNeitherScanStateNorLines : Obligations.HostReachesNeitherScanStateNorLines := by
  intro s t hturns h
  have hq : ∀ w, .timer w ∉ s.turns := fun w hw => nomatch hturns _ hw
  have hturn : s.HostsTurn := by
    cases hts : s.turns with
    | nil => exact .inl hts
    | cons turn rest => exact .inr (by simp [hts, hturns turn (by simp [hts])])
  rw [step_of_hostsTurn hturn] at h
  cases hport : s.hostPort with
  | nil =>
    simp only [hostMove, hport, Host.Outcome.next.injEq] at h
    exact h ▸ State.SameScanAndLines.refl s
  | cons item rest =>
    cases item with
    | command w =>
      rw [hostMove_command hport] at h
      exact portWord_host_sameScanAndLines (s := { s with hostPort := rest, turns := s.turns.tail })
        (fun w hw => hq w (List.mem_of_mem_tail hw)) h
    | pseudo p =>
      rw [hostMove_pseudo hport] at h
      exact Host.Outcome.next.inj h ▸ runPseudo_sameScanAndLines p rest s

/-! ### What the Timer does not reach (R25, R62, R205) -/

/-- On the Timer's turn a step takes the Timer's word and uses up the turn. -/
theorem step_timer {s : State} {w : Word} {rest : List Turn} (ht : s.turns = .timer w :: rest) :
    step s = timerWord w { s with turns := rest } := by
  rw [← portWord_timer]
  simp only [step, ht]

/-- A word on the timer port moves neither the framebuffer, nor a response, nor anything of the host, nor the turns. -/
theorem timerWord_frame {w : Word} {s t : State} (h : timerWord w s = .next t) :
    t.fb = s.fb ∧ t.responses = s.responses ∧ t.cursor = s.cursor ∧ t.hostPort = s.hostPort ∧
      t.refusedOps = s.refusedOps ∧ t.turns = s.turns := by
  obtain htick | hfault := timerWord_cases w s
  · rw [htick] at h
    exact ⟨runTick_fb h, runTick_responses h, runTick_cursor h, runTick_hostPort h, runTick_refusedOps h, runTick_turns h⟩
  · obtain rfl := Host.Outcome.next.inj (hfault.symm.trans h)
    simp

/-- Settles O38: the step is the Timer's word, run with its turn used up. -/
theorem timerReachesNeitherFramebufferNorHost : Obligations.TimerReachesNeitherFramebufferNorHost := by
  intro s t w rest ht h
  rw [step_timer ht] at h
  exact timerWord_frame h

end Sys2Proof.Machine
end

section
/-! PROOFS. The framebuffer between the host and the refresh engine (20_memory.md): no step from the invariant stops, a read
and a tick see the writes before them, and what a command leaves does not depend on the ticks inside it. -/

namespace Sys2Proof.Machine

/-! ### The host's next command (R62, R86) -/

/-- Settles O11: the host's turn makes the step a move of the host, whose next word is the command's. -/
theorem stepRunsTheHostsNextCommand : Obligations.StepRunsTheHostsNextCommand :=
  fun _ _ _ _ ht hq hd => step_hostCommand ht hq hd

/-! ### A command runs, and what it leaves with the host (R51, R52, R64, R66) -/

/-- The framebuffer a command leaves, from the framebuffer it starts from alone (R66). -/
def memoryAfter : Instr → Memory → Memory
  | .wrchar ofs code, m => if ofs.toNat < 800 then m.set ofs.toNat code else m
  | .rdcell _, m => m
  | .plot x y on, m =>
    if x.toNat < 80 ∧ y.toNat < 60 then
      (plotMicroOps Config.dotTag (dotOffset x.toNat y.toNat) (m.get (dotOffset x.toNat y.toNat))
        (dotBit x.toNat y.toNat) on).foldl (fun m op => op.onMemory m) m
    else m
  | .tick, m => m

/-- The bytes a command responds over a framebuffer: RDCELL responds one where its offset is legal (R102). -/
def responsesOver : Instr → Memory → List Byte
  | .rdcell ofs, m => if ofs.toNat < 800 then [m.get ofs.toNat] else []
  | _, _ => []

/-- From the scan registers of a line boundary every command runs to its end, with any operands and any turns inside it, and
neither the turns nor the scan state has a part in its framebuffer or its responses. -/
theorem exec_runs (i : Instr) {s : State} (hs : s.ScanOk) :
    ∃ t, exec i s = .next t ∧ t.fb = memoryAfter i s.fb ∧ t.responses = s.responses ++ responsesOver i s.fb := by
  cases i with
  | wrchar ofs code =>
    by_cases hofs : ofs.toNat < 800
    · exact ⟨_, execWrchar_legal hofs code s, by simp [memoryAfter, hofs], by simp [responsesOver]⟩
    · exact ⟨_, execWrchar_range (by omega) code s, by simp [memoryAfter, hofs], by simp [responsesOver]⟩
  | rdcell ofs =>
    by_cases hofs : ofs.toNat < 800
    · exact ⟨_, execRdcell_legal hofs s, rfl, by simp [responsesOver, hofs]⟩
    · exact ⟨_, execRdcell_range (by omega) s, by simp [memoryAfter], by simp [responsesOver, hofs]⟩
  | plot x y on =>
    by_cases hdot : x.toNat < 80 ∧ y.toNat < 60
    · obtain ⟨hx, hy⟩ := hdot
      obtain ⟨t, ht, -, -⟩ := execPlot_runs hx hy on hs
      have hops := (execPlot_legal hx hy on s).symm.trans ht
      refine ⟨t, ht, ?_, ?_⟩
      · simpa [memoryAfter, hx, hy] using runMicroOps_fb hops
      · simpa [responsesOver] using (execPlot_frame ht).1
    · exact ⟨_, execPlot_range (by omega) on s, by simp [memoryAfter, hdot], by simp [responsesOver]⟩
  | tick =>
    have hrun := runTick_runs hs
    exact ⟨_, hrun, runTick_fb hrun, by simp [responsesOver]⟩

/-- Settles O27: the two runs start from one framebuffer and one list of responses, and `exec_runs` reads nothing else. -/
theorem hostResultsDoNotDependOnTicks : Obligations.HostResultsDoNotDependOnTicks := by
  intro i s ts₁ ts₂ hs
  obtain ⟨t₁, hrun₁, hfb₁, hresp₁⟩ := exec_runs i (s := { s with turns := ts₁ }) hs
  obtain ⟨t₂, hrun₂, hfb₂, hresp₂⟩ := exec_runs i (s := { s with turns := ts₂ }) hs
  exact ⟨t₁, t₂, hrun₁, hrun₂, hfb₁.trans hfb₂.symm, hresp₁.trans hresp₂.symm⟩

/-- From the scan registers of a line boundary a word never stops the machine, on either port, whether it decodes or not. -/
theorem portWord_runs (p : Port) (w : Word) {s : State} (hs : s.ScanOk) : ∃ t, portWord p w s = .next t := by
  unfold portWord
  split
  · next i _ =>
    obtain ⟨t, ht, -, -⟩ := exec_runs i hs
    exact ⟨t, ht⟩
  · exact ⟨_, rfl⟩

theorem hostMove_runs {s : State} (hs : s.ScanOk) : ∃ t, hostMove s = .next t := by
  unfold hostMove
  split
  · next w rest _ => exact portWord_runs .host w (s := { s with hostPort := rest, turns := s.turns.tail }) hs
  · exact ⟨_, rfl⟩
  · exact ⟨_, rfl⟩

/-- Of the invariant the scan state alone keeps a step from stopping: only a tick forms an address from a register (R133,
R134). -/
theorem step_runs {s : State} (hs : s.ScanOk) : ∃ t, step s = .next t := by
  unfold step
  split
  · next w rest _ => exact portWord_runs .timer w (s := { s with turns := rest }) hs
  · exact ⟨_, rfl⟩
  · exact hostMove_runs hs
  · exact hostMove_runs hs

/-- Settles O43: the invariant holds the scan registers at a line boundary, from where `step_runs` gives the next state. -/
theorem stepFromTheInvariantNeverStops : Obligations.StepFromTheInvariantNeverStops := fun _ hs => step_runs hs.scan

/-! ### A read after a write (R62, R102) -/

/-- The command after a WRCHAR runs on the framebuffer with the byte stored. -/
theorem execAll_wrchar_then {ofs : BitVec 10} (hofs : ofs.toNat < 800) {code : Byte} {i : Instr} {s t : State}
    (h : exec i { s with fb := s.fb.set ofs.toNat code } = .next t) : execAll [.wrchar ofs code, i] s = .next t := by
  have hwrite : exec (.wrchar ofs code) s = .next { s with fb := s.fb.set ofs.toNat code } :=
    execWrchar_legal hofs code s
  simp only [execAll, hwrite, h, andThen_of_next]

/-- A read after a write: the new byte at the offset written, the old byte at every other. -/
theorem Memory.get_set {m : Memory} (hm : m.wf = true) (a b : Nat) (v : Byte) :
    (m.set a v).get b = if b = a then v else m.get b := by
  split
  case isTrue heq => rw [heq, Memory.get_set_same hm]
  case isFalse hne => exact Memory.get_set_other hne v

/-- Settles O20: RDCELL responds the byte it finds in the framebuffer that WRCHAR leaves, which `Memory.get_set` gives. -/
theorem rdcellSeesTheLastWrite : Obligations.RdcellSeesTheLastWrite := by
  intro a b code s ha hb hm
  have hread := execRdcell_legal hb { s with fb := s.fb.set a.toNat code }
  refine ⟨_, s.fb.get b.toNat, execAll_wrchar_then ha hread, Memory.read_mapped hb, ?_⟩
  simp only [respond_responses, Memory.get_set hm, BitVec.toNat_inj]

/-! ### The nibbles of a tick (R131, R145) -/

theorem nibblesOf_append (es fs : List BusEvent) : nibblesOf (es ++ fs) = nibblesOf es ++ nibblesOf fs := by
  induction es with
  | nil => rfl
  | cons e es ih => cases e <;> simp [nibblesOf, ih]

/-- The glyph byte a tick looks up for a column (R131 steps 1a and 1b). -/
def glyphOf (s : State) (col : Nat) : Byte := Config.glyphRom (s.grb.toNat + (s.fb.get (s.frp.toNat + col)).toNat)

/-- The tick after a write to a column of its row looks the new code up (R62, R65). -/
theorem glyphOf_set {s : State} (hm : s.fb.wf = true) (col : Nat) (code : Byte) :
    glyphOf { s with fb := s.fb.set (s.frp.toNat + col) code } col = Config.glyphRom (s.grb.toNat + code.toNat) := by
  simp only [glyphOf, Memory.get_set_same hm]

/-- The nibbles of the shift phase over a list of columns, the high nibble of each glyph byte first. -/
def shiftNibbles (cols : List Nat) (s : State) : List Nibble :=
  cols.flatMap fun col => [(glyphOf s col).extractLsb' 4 4, (glyphOf s col).extractLsb' 0 4]

theorem nibblesOf_shiftEvents (cols : List Nat) (s : State) : nibblesOf (shiftEvents cols s) = shiftNibbles cols s := by
  induction cols with
  | nil => rfl
  | cons col rest ih =>
    have hcons : shiftEvents (col :: rest) s = columnEvents (glyphOf s col) ++ shiftEvents rest s := rfl
    rw [hcons, nibblesOf_append, ih]
    rfl

/-- The events of a tick hold the nibbles of its shift phase and no others. -/
theorem runTick_nibbles {s t : State} (h : runTick s = .next t) :
    ∃ es, t.trace = s.trace ++ es ∧ nibblesOf es = shiftNibbles (List.range 40) s := by
  have htrace := runTick_trace h
  simp only [List.append_assoc] at htrace
  refine ⟨_, htrace, ?_⟩
  simp only [nibblesOf_append, nibblesOf_shiftEvents]
  split <;> split <;> simp [nibblesOf]

/-- The j-th column of the shift phase outputs the nibbles 2j and 2j + 1. -/
theorem shiftNibbles_getElem? {cols : List Nat} {j col : Nat} (h : cols[j]? = some col) (s : State) :
    (shiftNibbles cols s)[2 * j]? = some ((glyphOf s col).extractLsb' 4 4) ∧
      (shiftNibbles cols s)[2 * j + 1]? = some ((glyphOf s col).extractLsb' 0 4) := by
  induction cols generalizing j with
  | nil => simp at h
  | cons first rest ih =>
    have hcons : shiftNibbles (first :: rest) s =
        (glyphOf s first).extractLsb' 4 4 :: (glyphOf s first).extractLsb' 0 4 :: shiftNibbles rest s := rfl
    cases j with
    | zero =>
      obtain rfl : first = col := by simpa using h
      simp [hcons]
    | succ j => simpa [hcons, Nat.mul_succ] using ih (by simpa using h)

/-- The cells of the row that the next tick outputs are cells of the framebuffer (R134). -/
theorem State.ScanOk.column_mapped {s : State} (hs : s.ScanOk) {c : Nat} (hc : c < 40) : s.frp.toNat + c < 800 := by
  obtain ⟨-, ⟨hcr, -⟩, -, hfrp, -⟩ := hs
  simp only [State.charRow] at hfrp
  omega

/-- Settles O36: the tick after the WRCHAR runs on the framebuffer with the byte stored, so the column of its cell looks the
new code up. -/
theorem tickShowsTheByteWrittenBeforeIt : Obligations.TickShowsTheByteWrittenBeforeIt := by
  intro ofs code c s hm hs hc hofs
  have hlegal : ofs.toNat < 800 := hofs ▸ hs.column_mapped hc
  have htick := runTick_runs (s := { s with fb := s.fb.set ofs.toNat code }) hs
  obtain ⟨es, htrace, hnibbles⟩ := runTick_nibbles htick
  have hcol : (List.range 40)[c]? = some c := List.getElem?_range hc
  refine ⟨_, es, execAll_wrchar_then hlegal htick, htrace, ?_⟩
  rw [hnibbles, hofs, ← glyphOf_set hm c code]
  exact shiftNibbles_getElem? hcol _

end Sys2Proof.Machine
end

section
/-! PROOFS. The encoding (30_encoding.md): each row of the opcode table as an equation of the decoder, decode and encode as
inverses, and from them which words are commands, on which port, with which operands. The step over a word that decodes or
does not, and the assembler's operands, close the part. -/

namespace Sys2Proof.Machine

open Sys2Proof.Laws.TableRow (mask pattern)

/-! ### Slices and masks of a word (R80, R85) -/

/-- A slice that a mask keeps whole is the slice of the masked word. -/
theorem slice_of_and_eq {w m v : Word} (h : w &&& m = v) {start len : Nat}
    (hm : m.extractLsb' start len = BitVec.allOnes len) : w.extractLsb' start len = v.extractLsb' start len := by
  rw [← h, BitVec.extractLsb'_and, hm, BitVec.and_allOnes]

/-- A masked word determines the word under any part of the mask. -/
theorem and_of_and_eq {w m v : Word} (h : w &&& m = v) {part : Word} (hpart : m &&& part = part) :
    w &&& part = v &&& part := by
  rw [← h, BitVec.and_assoc, hpart]

theorem opField_toNat (w : Word) : (opField w).toNat = w.toNat / 2 ^ 28 := by
  rw [opField, BitVec.extractLsb'_toNat, Nat.shiftRight_eq_div_pow]
  exact Nat.mod_eq_of_lt (by have := w.isLt; omega)

theorem ofsField_toNat (w : Word) : (ofsField w).toNat = w.toNat / 2 ^ 16 % 2 ^ 10 := by
  rw [ofsField, BitVec.extractLsb'_toNat, Nat.shiftRight_eq_div_pow]

theorem codeField_toNat (w : Word) : (codeField w).toNat = w.toNat % 2 ^ 8 := by
  rw [codeField, BitVec.extractLsb'_toNat, Nat.shiftRight_zero]

theorem xField_toNat (w : Word) : (xField w).toNat = w.toNat / 2 ^ 16 % 2 ^ 7 := by
  rw [xField, BitVec.extractLsb'_toNat, Nat.shiftRight_eq_div_pow]

theorem yField_toNat (w : Word) : (yField w).toNat = w.toNat / 2 ^ 8 % 2 ^ 6 := by
  rw [yField, BitVec.extractLsb'_toNat, Nat.shiftRight_eq_div_pow]

theorem onField_toNat (w : Word) : (onField w).toNat = w.toNat % 2 := by
  rw [onField, BitVec.getLsbD, Nat.toNat_testBit, Nat.pow_zero, Nat.div_one]

theorem ofBool_onField (w : Word) : BitVec.ofBool (onField w) = w.extractLsb' 0 1 := by
  apply BitVec.eq_of_toNat_eq
  rw [BitVec.toNat_ofBool, onField_toNat, BitVec.extractLsb'_toNat, Nat.shiftRight_zero, Nat.pow_one]

/-! ### The reserved bits of each format (R81 to R84) -/

theorem reservedClearW_iff {w : Word} :
    reservedClearW w = true ↔ w.extractLsb' 26 2 = 0#2 ∧ w.extractLsb' 8 8 = 0#8 := by
  simp [reservedClearW]

theorem reservedClearR_iff {w : Word} :
    reservedClearR w = true ↔ w.extractLsb' 26 2 = 0#2 ∧ w.extractLsb' 0 16 = 0#16 := by
  simp [reservedClearR]

theorem reservedClearP_iff {w : Word} : reservedClearP w = true ↔
    w.extractLsb' 23 5 = 0#5 ∧ w.extractLsb' 14 2 = 0#2 ∧ w.extractLsb' 1 7 = 0#7 := by
  simp [reservedClearP, and_assoc]

theorem reservedClearT_iff {w : Word} : reservedClearT w = true ↔ w.extractLsb' 0 28 = 0#28 := by
  simp [reservedClearT]

/-! ### The decoder before its port check (R86 to R88) -/

/-- What it takes for a word to decode, and to which command: its OP, its format's reserved bits clear, its fields. -/
theorem decodeWord_cases {w : Word} {i : Instr} (h : decodeWord w = .command i) :
    (opField w = 0b0001#4 ∧ reservedClearW w = true ∧ i = .wrchar (ofsField w) (codeField w)) ∨
    (opField w = 0b0010#4 ∧ reservedClearR w = true ∧ i = .rdcell (ofsField w)) ∨
    (opField w = 0b0011#4 ∧ reservedClearP w = true ∧ i = .plot (xField w) (yField w) (onField w)) ∨
    (opField w = 0b1000#4 ∧ reservedClearT w = true ∧ i = .tick) := by
  unfold decodeWord at h
  split_ifs at h with hW hresW hR hresR hP hresP hT hresT <;> cases h
  · exact .inl ⟨hW, hresW, rfl⟩
  · exact .inr (.inl ⟨hR, hresR, rfl⟩)
  · exact .inr (.inr (.inl ⟨hP, hresP, rfl⟩))
  · exact .inr (.inr (.inr ⟨hT, hresT, rfl⟩))

/-- A word that matches WRCHAR's row decodes to WRCHAR of its fields (R81, R100). -/
theorem decodeWord_of_wrcharRow {w : Word} (h : w &&& 0xFC00FF00 = 0x10000000) :
    decodeWord w = .command (.wrchar (ofsField w) (codeField w)) := by
  have hop : opField w = 0b0001#4 := slice_of_and_eq h (by decide)
  have hres : reservedClearW w = true :=
    reservedClearW_iff.2 ⟨slice_of_and_eq h (by decide), slice_of_and_eq h (by decide)⟩
  simp [decodeWord, hop, hres]

/-- A word that matches RDCELL's row decodes to RDCELL of its field (R82, R102). -/
theorem decodeWord_of_rdcellRow {w : Word} (h : w &&& 0xFC00FFFF = 0x20000000) :
    decodeWord w = .command (.rdcell (ofsField w)) := by
  have hop : opField w = 0b0010#4 := slice_of_and_eq h (by decide)
  have hres : reservedClearR w = true :=
    reservedClearR_iff.2 ⟨slice_of_and_eq h (by decide), slice_of_and_eq h (by decide)⟩
  simp [decodeWord, hop, hres]

/-- A word that matches PLOT's row decodes to PLOT of its fields (R83, R103). -/
theorem decodeWord_of_plotRow {w : Word} (h : w &&& 0xFF80C0FE = 0x30000000) :
    decodeWord w = .command (.plot (xField w) (yField w) (onField w)) := by
  have hop : opField w = 0b0011#4 := slice_of_and_eq h (by decide)
  have hres : reservedClearP w = true :=
    reservedClearP_iff.2 ⟨slice_of_and_eq h (by decide), slice_of_and_eq h (by decide), slice_of_and_eq h (by decide)⟩
  simp [decodeWord, hop, hres]

/-! ### Decode and encode are inverses (R81 to R86) -/

theorem ofsField_encode_rdcell (ofs : BitVec 10) : ofsField (encode (.rdcell ofs)) = ofs := by
  simp only [ofsField, encode, BitVec.extractLsb'_append_eq_of_le, Nat.reduceLeDiff, Nat.reduceSub,
    BitVec.extractLsb'_append_eq_right]

theorem xField_encode_plot (x : BitVec 7) (y : BitVec 6) (on : Bool) : xField (encode (.plot x y on)) = x := by
  simp only [xField, encode, BitVec.extractLsb'_append_eq_of_le, Nat.reduceLeDiff, Nat.reduceSub,
    BitVec.extractLsb'_append_eq_right]

theorem yField_encode_plot (x : BitVec 7) (y : BitVec 6) (on : Bool) : yField (encode (.plot x y on)) = y := by
  simp only [yField, encode, BitVec.extractLsb'_append_eq_of_le, Nat.reduceLeDiff, Nat.reduceSub,
    BitVec.extractLsb'_append_eq_right]

theorem onField_encode_plot (x : BitVec 7) (y : BitVec 6) (on : Bool) : onField (encode (.plot x y on)) = on := by
  simp only [onField, encode, BitVec.getLsbD_append, BitVec.getLsbD_ofBool, Nat.zero_lt_one, if_true, decide_true,
    Bool.true_and]

theorem decodeWord_encode (i : Instr) : decodeWord (encode i) = .command i := by
  cases i with
  | wrchar ofs code =>
    rw [decodeWord_of_wrcharRow (Laws.TableRow.wrchar ofs code), ofsField_encode_wrchar, codeField_encode_wrchar]
  | rdcell ofs => rw [decodeWord_of_rdcellRow (Laws.TableRow.rdcell ofs), ofsField_encode_rdcell]
  | plot x y on =>
    rw [decodeWord_of_plotRow (Laws.TableRow.plot x y on), xField_encode_plot, yField_encode_plot, onField_encode_plot]
  | tick => decide

/-- A word that decodes is laid out as its command: its OP, reserved bits and fields, put side by side, are the word. -/
theorem encode_of_decodeWord {w : Word} {i : Instr} (h : decodeWord w = .command i) : encode i = w := by
  obtain ⟨hop, hres, rfl⟩ | ⟨hop, hres, rfl⟩ | ⟨hop, hres, rfl⟩ | ⟨hop, hres, rfl⟩ := decodeWord_cases h
  · obtain ⟨h26, h8⟩ := reservedClearW_iff.1 hres
    rw [encode, ← hop, ← h26, ← h8, opField, ofsField, codeField]
    repeat rw [BitVec.extractLsb'_append_extractLsb'_eq_extractLsb' (by rfl)]
    exact BitVec.extractLsb'_eq_self
  · obtain ⟨h26, h0⟩ := reservedClearR_iff.1 hres
    rw [encode, ← hop, ← h26, ← h0, opField, ofsField]
    repeat rw [BitVec.extractLsb'_append_extractLsb'_eq_extractLsb' (by rfl)]
    exact BitVec.extractLsb'_eq_self
  · obtain ⟨h23, h14, h1⟩ := reservedClearP_iff.1 hres
    rw [encode, ← hop, ← h23, ← h14, ← h1, ofBool_onField, opField, xField, yField]
    repeat rw [BitVec.extractLsb'_append_extractLsb'_eq_extractLsb' (by rfl)]
    exact BitVec.extractLsb'_eq_self
  · rw [encode, ← hop, ← reservedClearT_iff.1 hres]
    exact BitVec.extractLsb'_append_extractLsb'

/-! ### The decoder on a port (R86, R90) -/

/-- A word is a command on a port exactly when it is the word of that command and the port is the command's. -/
theorem decode_eq_command_iff {p : Port} {w : Word} {i : Instr} :
    decode p w = .command i ↔ encode i = w ∧ i.port = p := by
  constructor
  · intro h
    have hport := port_of_decode h
    refine ⟨encode_of_decodeWord ?_, hport⟩
    unfold decode at h
    split at h
    · next j hj => split_ifs at h; rwa [hj]
    · simp at h
  · rintro ⟨rfl, hport⟩
    simp [decode, decodeWord_encode, hport]

/-- Every command decodes from its word on its own port, operands out of range included (R86, R92). -/
theorem decode_encode (i : Instr) : decode i.port (encode i) = .command i :=
  decode_eq_command_iff.2 ⟨rfl, rfl⟩

/-- The word of a command is refused by the other port, because of the port (R90). -/
theorem decode_encode_otherPort {p : Port} {i : Instr} (hp : p ≠ i.port) :
    decode p (encode i) = .illegal .wrongPort := by
  simp [decode, decodeWord_encode, hp.symm]

theorem decode_illegal_of_no_command {p : Port} {w : Word} (h : ∀ i, decode p w ≠ .command i) :
    ∃ why, decode p w = .illegal why := by
  cases hd : decode p w with
  | command i => exact absurd hd (h i)
  | illegal why => exact ⟨why, rfl⟩

/-- Settles O2: `decode_encode` on the command's own port, `decode_encode_otherPort` on the other. -/
theorem decodeOfEncodeIsTheCommand : Obligations.DecodeOfEncodeIsTheCommand :=
  fun i => ⟨decode_encode i, fun _ hp => decode_encode_otherPort hp⟩

/-- Settles O3: one direction of `decode_eq_command_iff`. -/
theorem decodedWordIsTheCommandsEncoding : Obligations.DecodedWordIsTheCommandsEncoding :=
  fun _ _ _ h => decode_eq_command_iff.1 h

/-- Settles O1: each word is the encoding of its command, and the port is the command's. -/
theorem writtenOutWordsDecodeAsTheSpecSays : Obligations.WrittenOutWordsDecodeAsTheSpecSays := by
  refine ⟨?_, ?_, ?_, ?_, ?_, ?_⟩ <;> exact decode_eq_command_iff.2 ⟨by decide, rfl⟩

/-! ### Words and rows of the opcode table (R84, R87, R88, R90, R100, R102, R103) -/

/-- The word of a command matches the command's row. -/
theorem encode_and_mask (i : Instr) : encode i &&& mask i = pattern i := by
  cases i with
  | wrchar ofs code => exact Laws.TableRow.wrchar ofs code
  | rdcell ofs => exact Laws.TableRow.rdcell ofs
  | plot x y on => exact Laws.TableRow.plot x y on
  | tick => exact Laws.TableRow.tick

/-- A word that decodes matches the row of its command. -/
theorem row_of_decode {p : Port} {w : Word} {i : Instr} (h : decode p w = .command i) : w &&& mask i = pattern i := by
  obtain ⟨rfl, -⟩ := decode_eq_command_iff.1 h
  exact encode_and_mask i

/-- A command found before the port check is the command on its own port. -/
theorem decode_of_decodeWord {w : Word} {i : Instr} (h : decodeWord w = .command i) : decode i.port w = .command i :=
  decode_eq_command_iff.2 ⟨encode_of_decodeWord h, rfl⟩

/-- Settles O9: TICK has no operand, so its one word is `encode .tick`. -/
theorem onlyTickWordIsTheTableOne : Obligations.OnlyTickWordIsTheTableOne := by
  intro p w
  have htick : encode .tick = 0x80000000 := by decide
  constructor
  · intro hd
    obtain ⟨rfl, hport⟩ := decode_eq_command_iff.1 hd
    exact ⟨hport.symm, htick⟩
  · rintro ⟨rfl, rfl⟩
    exact htick ▸ decode_encode .tick

/-- Settles O4: a command's word matches its row (`row_of_decode`), and a word that matches a row decodes to the command of
its fields. -/
theorem decodeAcceptsExactlyTheTableRows : Obligations.DecodeAcceptsExactlyTheTableRows := by
  intro p w
  constructor
  · rintro ⟨i, hd⟩
    have hport := (port_of_decode hd).symm
    have hrow := row_of_decode hd
    cases i with
    | wrchar ofs code => exact .inl ⟨hport, .inl hrow⟩
    | rdcell ofs => exact .inl ⟨hport, .inr (.inl hrow)⟩
    | plot x y on => exact .inl ⟨hport, .inr (.inr hrow)⟩
    | tick => exact .inr ((onlyTickWordIsTheTableOne p w).1 hd)
  · rintro (⟨rfl, hW | hR | hP⟩ | htick)
    · exact ⟨_, decode_of_decodeWord (decodeWord_of_wrcharRow hW)⟩
    · exact ⟨_, decode_of_decodeWord (decodeWord_of_rdcellRow hR)⟩
    · exact ⟨_, decode_of_decodeWord (decodeWord_of_plotRow hP)⟩
    · exact ⟨.tick, (onlyTickWordIsTheTableOne p w).2 htick⟩

/-- Settles O5: the word is its command's encoding, whose fields are the operands. -/
theorem operandsAreTheUnsignedFieldsOfTheWord : Obligations.OperandsAreTheUnsignedFieldsOfTheWord := by
  intro p w
  refine ⟨fun ofs code h => ?_, fun ofs h => ?_, fun x y on h => ?_⟩ <;>
    obtain ⟨rfl, -⟩ := decode_eq_command_iff.1 h
  · rw [← ofsField_toNat, ← codeField_toNat, ofsField_encode_wrchar, codeField_encode_wrchar]
    exact ⟨rfl, rfl⟩
  · rw [← ofsField_toNat, ofsField_encode_rdcell]
  · rw [← xField_toNat, ← yField_toNat, ← onField_toNat, xField_encode_plot, yField_encode_plot, onField_encode_plot]
    exact ⟨rfl, rfl, rfl⟩

/-- R87's map from OP to the operation. -/
theorem operation_of_decode {p : Port} {w : Word} {i : Instr} (h : decode p w = .command i) :
    (w.toNat / 2 ^ 28 = 1 ∧ ∃ ofs code, i = .wrchar ofs code) ∨ (w.toNat / 2 ^ 28 = 2 ∧ ∃ ofs, i = .rdcell ofs) ∨
      (w.toNat / 2 ^ 28 = 3 ∧ ∃ x y on, i = .plot x y on) ∨ (w.toNat / 2 ^ 28 = 8 ∧ i = .tick) := by
  have hword : decodeWord w = .command i := by
    obtain ⟨rfl, -⟩ := decode_eq_command_iff.1 h
    exact decodeWord_encode i
  rw [← opField_toNat]
  obtain ⟨hop, -, hi⟩ | ⟨hop, -, hi⟩ | ⟨hop, -, hi⟩ | ⟨hop, -, hi⟩ := decodeWord_cases hword <;> rw [hop]
  · exact .inl ⟨rfl, _, _, hi⟩
  · exact .inr (.inl ⟨rfl, _, hi⟩)
  · exact .inr (.inr (.inl ⟨rfl, _, _, _, hi⟩))
  · exact .inr (.inr (.inr ⟨rfl, hi⟩))

/-- Settles O6: `operation_of_decode`, which leaves a word with a reserved OP no command to decode to. -/
theorem opFieldSelectsTheOperation : Obligations.OpFieldSelectsTheOperation := by
  refine fun p w => ⟨fun hop => decode_illegal_of_no_command fun i hd => ?_, fun i hd => operation_of_decode hd⟩
  obtain ⟨h, -⟩ | ⟨h, -⟩ | ⟨h, -⟩ | ⟨h, -⟩ := operation_of_decode hd <;> omega

/-- The OP of a row determines its mask. -/
theorem mask_eq_of_pattern_eq {i j : Instr} (h : pattern i = pattern j) : mask i = mask j := by
  cases i <;> cases j <;> simp [mask, pattern] at h ⊢

theorem mask_and_op (i : Instr) : mask i &&& 0xF0000000 = 0xF0000000 := by
  cases i <;> simp only [mask] <;> decide

theorem pattern_and_op (i : Instr) : pattern i &&& 0xF0000000 = pattern i := by
  cases i <;> simp only [pattern] <;> decide

theorem pattern_below_op (i : Instr) : pattern i &&& 0x0FFFFFFF = 0 := by
  cases i <;> simp only [pattern] <;> decide

/-- A word with the OP of a row and a bit set among the other bits of the row's mask is no command (R88). -/
theorem decode_illegal_of_reservedBit {p : Port} {w : Word} (i : Instr) (hop : w &&& 0xF0000000 = pattern i)
    (hbit : w &&& (mask i &&& 0x0FFFFFFF) ≠ 0) : ∃ why, decode p w = .illegal why := by
  refine decode_illegal_of_no_command fun j hd => hbit ?_
  have hrow : w &&& mask j = pattern j := row_of_decode hd
  have hopj : w &&& 0xF0000000 = pattern j := (and_of_and_eq hrow (mask_and_op j)).trans (pattern_and_op j)
  rw [mask_eq_of_pattern_eq (hop.symm.trans hopj), ← BitVec.and_assoc, hrow, pattern_below_op]

/-- Settles O7: the four cases are `decode_illegal_of_reservedBit` on the four rows. -/
theorem setReservedBitIsIllegal : Obligations.SetReservedBitIsIllegal := by
  rintro p w (⟨hop, hbit⟩ | ⟨hop, hbit⟩ | ⟨hop, hbit⟩ | ⟨hop, hbit⟩)
  · exact decode_illegal_of_reservedBit (.wrchar 0 0) hop hbit
  · exact decode_illegal_of_reservedBit (.rdcell 0) hop hbit
  · exact decode_illegal_of_reservedBit (.plot 0 0 false) hop hbit
  · exact decode_illegal_of_reservedBit .tick hop hbit

theorem port_eq_timer_iff {i : Instr} : i.port = .timer ↔ i = .tick := by
  cases i <;> simp [Instr.port]

/-- Settles O8: the word that decodes is its command's encoding, which the other port refuses. -/
theorem eachPortAcceptsItsOwnOperations : Obligations.EachPortAcceptsItsOwnOperations := by
  refine fun w => ⟨fun i hd => ?_, fun i hd => ?_⟩ <;> obtain ⟨rfl, hport⟩ := decode_eq_command_iff.1 hd
  · exact ⟨port_eq_timer_iff.1 hport, _, decode_encode_otherPort (by simp [hport])⟩
  · refine ⟨?_, _, decode_encode_otherPort (by simp [hport])⟩
    rintro rfl
    cases hport

/-! ### Operands out of range (R92, R202) -/

/-- Settles O10: every command decodes from its encoding, and an operand out of range is the fault of the command's range
check, which STATUS records when it is clear. -/
theorem outOfRangeOperandDecodesAndFaultsWhenExecuted : Obligations.OutOfRangeOperandDecodesAndFaultsWhenExecuted := by
  intro s hclear
  have hfault : ∀ c, (raiseFault c s).faulted = true ∧ (raiseFault c s).cause = c := by simp [hclear]
  constructor
  · intro ofs code hofs
    exact ⟨decode_encode (.wrchar ofs code), ⟨_, execWrchar_range hofs code s, hfault _⟩,
      decode_encode (.rdcell ofs), _, execRdcell_range hofs s, hfault _⟩
  · intro x y on hdot
    exact ⟨decode_encode (.plot x y on), _, execPlot_range hdot on s, hfault _⟩

/-! ### A step over a word (R86, R90, R201 to R203) -/

theorem portWord_of_illegal {p : Port} {w : Word} {why : Illegal} (hd : decode p w = .illegal why) (s : State) :
    portWord p w s = .next (raiseFault .illegalCommand s) := by
  simp [portWord, hd]

theorem raiseFault_eq_faultRecorded (c : Cause) (s : State) : raiseFault c s = Statements.faultRecorded c s := by
  by_cases h : s.faulted = true
  · rw [raiseFault, if_pos h, Statements.faultRecorded, if_pos h, ← h]
  · rw [raiseFault, if_neg h, Statements.faultRecorded, if_neg h]

/-- Settles O12: on the Timer's turn the step is the Timer's word on its port. -/
theorem stepRunsTheTimersCommand : Obligations.StepRunsTheTimersCommand := by
  intro s w rest i ht hd
  rw [step_timer ht, ← portWord_timer, portWord_of_decode hd]

/-- Settles O13: either agent's word is taken, and what does not decode raises ILLEGAL_COMMAND (`portWord_of_illegal`). -/
theorem stepRecordsIllegalCommand : Obligations.StepRecordsIllegalCommand := by
  intro s w why
  constructor
  · intro rest ht hq hd
    rw [step_of_hostsTurn ht, hostMove_command hq, portWord_of_illegal hd, raiseFault_eq_faultRecorded]
  · intro rest ht hd
    rw [step_timer ht, ← portWord_timer, portWord_of_illegal hd, raiseFault_eq_faultRecorded]

/-! ### The assembler (R91) -/

/-- Settles O54: each line's test is that its operands fit, and a number that fits is the value of its field. -/
theorem assemblerRefusesExactlyWhatDoesNotFit : Obligations.AssemblerRefusesExactlyWhatDoesNotFit := by
  intro ofs code x y on
  refine ⟨?_, fun h => if_neg h, ?_, fun h => if_neg h, ?_, fun h => if_neg h, rfl⟩
  · rintro ⟨hofs, hcode⟩
    exact ⟨BitVec.ofNat 10 ofs, BitVec.ofNat 8 code, Nat.mod_eq_of_lt hofs, Nat.mod_eq_of_lt hcode, if_pos ⟨hofs, hcode⟩⟩
  · intro hofs
    exact ⟨BitVec.ofNat 10 ofs, Nat.mod_eq_of_lt hofs, if_pos hofs⟩
  · rintro ⟨hx, hy, hon⟩
    have hbit : (decide (on = 1)).toNat = on := by interval_cases on <;> rfl
    exact ⟨BitVec.ofNat 7 x, BitVec.ofNat 6 y, decide (on = 1), Nat.mod_eq_of_lt hx, Nat.mod_eq_of_lt hy, hbit,
      if_pos ⟨hx, hy, hon⟩⟩

end Sys2Proof.Machine
end

section
/-! PROOFS. The cell codec (40_cell_codec.md): dots and the bits of cells, the byte a PLOT leaves in its cell, and what
WRCHAR, RDCELL and PLOT do to the framebuffer and to the rest of the state, ticks between their micro-operations included. -/

namespace Sys2Proof.Machine

open Sys2Proof.Statements

/-! ### Dots and the bits of cells (R104, R105, R107, R111) -/

theorem dotBit_eq (x y : Nat) : dotBit x y = (59 - y) % 3 + 3 * (x % 2) := by
  unfold dotBit flipY
  split <;> omega

theorem dotBit_lt (x y : Nat) : dotBit x y < 6 := by
  rw [dotBit_eq]
  omega

/-- The cell of a legal dot, and its bit in the cell, show that dot. -/
theorem dot_of_dotOffset_dotBit {x y : Nat} (hx : x < 80) (hy : y < 60) :
    dotColumn (dotOffset x y) (dotBit x y) = x ∧ dotRow (dotOffset x y) (dotBit x y) = y := by
  have hcol : dotOffset x y % 40 = x / 2 := by simp only [dotOffset, flipY, Config.charCols]; omega
  have hrow : dotOffset x y / 40 = (59 - y) / 3 := by simp only [dotOffset, flipY, Config.charCols]; omega
  simp only [dotColumn, dotRow, Config.charCols, hcol, hrow, dotBit_eq]
  omega

/-- The dot that a bit of a cell shows lies on the canvas, and stands at that bit of that cell. -/
theorem dotOffset_dotBit_of_dot {o k : Nat} (ho : o < 800) (hk : k < 6) :
    dotColumn o k < 80 ∧ dotRow o k < 60 ∧
      dotOffset (dotColumn o k) (dotRow o k) = o ∧ dotBit (dotColumn o k) (dotRow o k) = k := by
  have hfromTop : 59 - dotRow o k = 3 * (o / 40) + k % 3 := by simp only [dotRow, Config.charCols]; omega
  have hcol : dotColumn o k = 2 * (o % 40) + k / 3 := rfl
  have hlt : dotRow o k < 60 := by simp only [dotRow]; omega
  rw [dotBit_eq, dotOffset, flipY, hfromTop, hcol]
  simp only [Config.charCols]
  omega

/-- Settles O24: each map undoes the other. -/
theorem dotsAndCellBitsStandOneToOne : Obligations.DotsAndCellBitsStandOneToOne :=
  ⟨fun x y hx hy => ⟨dotOffset_mapped hx, dotBit_lt x y, dot_of_dotOffset_dotBit hx hy⟩,
    fun _ _ ho hk => dotOffset_dotBit_of_dot ho hk⟩

/-! ### The byte a PLOT leaves in its cell (R26, R103, R106, R108) -/

/-- Bit k takes the value written, and the other bits keep theirs. -/
theorem getLsbD_setDot {i : Nat} (hi : i < 8) (b : Byte) (k : Nat) (on : Bool) :
    (setDot b k on).getLsbD i = if i = k then on else b.getLsbD i := by
  have hmask : (1#8 <<< k).getLsbD i = decide (i = k) := by
    rw [← BitVec.twoPow_eq, BitVec.getLsbD_twoPow, Bool.eq_iff_iff]
    simp only [Bool.and_eq_true, decide_eq_true_eq]
    omega
  cases on with
  | true =>
    rw [setDot, if_pos rfl, BitVec.getLsbD_or, hmask]
    by_cases hik : i = k <;> simp [hik]
  | false =>
    rw [setDot, if_neg Bool.false_ne_true, BitVec.getLsbD_and, BitVec.getLsbD_not, hmask]
    by_cases hik : i = k <;> simp [hik, hi]

/-- Of two writes to one bit the second one stays. -/
theorem setDot_setDot (b : Byte) (k : Nat) (p q : Bool) : setDot (setDot b k p) k q = setDot b k q := by
  refine BitVec.eq_of_getLsbD_eq fun i hi => ?_
  simp only [getLsbD_setDot hi]
  split <;> rfl

/-- A dot bit is no bit of the tag. -/
theorem isDotCell_setDot {k : Nat} (hk : k < 6) (t : DotTag) (b : Byte) (on : Bool) :
    isDotCell t (setDot b k on) = isDotCell t b := by
  have h7 : (setDot b k on).getLsbD 7 = b.getLsbD 7 := by rw [getLsbD_setDot (by decide), if_neg (by omega)]
  have h6 : (setDot b k on).getLsbD 6 = b.getLsbD 6 := by rw [getLsbD_setDot (by decide), if_neg (by omega)]
  rw [isDotCell, h7, h6, isDotCell]

theorem isDotCell_tagByte (t : DotTag) : isDotCell t (tagByte t) = true := by
  cases t <;> rfl

/-- What PLOT works on is a dot cell, whatever it found (R106). -/
theorem isDotCell_dotCellOf (t : DotTag) (b : Byte) : isDotCell t (dotCellOf t b) = true := by
  unfold dotCellOf
  split
  · assumption
  · exact isDotCell_tagByte t

/-- DOT_TAG_BYTE has no dot to clear (R8). -/
theorem setDot_tagByte_false {k : Nat} (hk : k < 6) (t : DotTag) : setDot (tagByte t) k false = tagByte t := by
  cases t <;> interval_cases k <;> rfl

/-- A second PLOT of a bit finds a dot cell, and its dot is the one that stays (R109). -/
theorem plottedCell_plottedCell {k : Nat} (hk : k < 6) (t : DotTag) (b : Byte) (p q : Bool) :
    plottedCell t (plottedCell t b k p) k q = plottedCell t b k q := by
  have hdot : isDotCell t (plottedCell t b k p) = true := by
    rw [plottedCell, isDotCell_setDot hk, isDotCell_dotCellOf]
  rw [plottedCell, dotCellOf, if_pos hdot, plottedCell, setDot_setDot, plottedCell]

/-! The model's functions are the expressions of R8, R26 and R103 that the statements write. -/

theorem isDotCell_iff_hasDotTag (b : Byte) : isDotCell Config.dotTag b = true ↔ hasDotTag b := by
  rw [isDotCell_eq, decide_eq_true_iff]

theorem plottedCell_eq_cellAfterPlot (b : Byte) (k : Nat) (on : Bool) :
    plottedCell Config.dotTag b k on = cellAfterPlot b k on := by
  simp only [plottedCell, setDot, dotCellOf, isDotCell_iff_hasDotTag, tagByte_eq]

/-- A cleared dot in a dot cell, and DOT_TAG_BYTE in place of a character (R109 item 2). -/
theorem plottedCell_off {k : Nat} (hk : k < 6) (b : Byte) :
    plottedCell Config.dotTag b k false = if hasDotTag b then b &&& ~~~(1#8 <<< k) else dotTagByte := by
  rw [plottedCell, dotCellOf]
  simp only [isDotCell_iff_hasDotTag]
  split
  · rfl
  · rw [setDot_tagByte_false hk, tagByte_eq]

theorem plotMicroOps_eq (a k : Nat) (b : Byte) (on : Bool) :
    plotMicroOps Config.dotTag a b k on =
      .read a :: ((if hasDotTag b then [] else [.write a dotTagByte]) ++ [.write a (cellAfterPlot b k on)]) := by
  simp only [plotMicroOps, plotWrites, isDotCell_iff_hasDotTag, plottedCell_eq_cellAfterPlot, tagByte_eq]
  split <;> rfl

/-! ### WRCHAR and RDCELL (R100 to R102) -/

/-- Settles O17: `execWrchar_legal` and the reads after a write, or `execWrchar_range`. -/
theorem wrcharStoresItsByteVerbatim : Obligations.WrcharStoresItsByteVerbatim := by
  refine fun ofs code s => ⟨Laws.TableRow.wrchar ofs code, fun hofs hm => ?_, fun hofs => ?_⟩
  · exact ⟨_, execWrchar_legal hofs code s, Memory.read_set_same hm hofs code,
      fun a ha => Memory.read_set_other ha code, rfl⟩
  · rw [← raiseFault_eq_faultRecorded]
    exact execWrchar_range hofs code s

/-- Settles O18: `execRdcell_legal` or `execRdcell_range`. -/
theorem rdcellRespondsTheRawByte : Obligations.RdcellRespondsTheRawByte := by
  refine fun ofs s => ⟨Laws.TableRow.rdcell ofs, fun hofs => ?_, fun hofs => ?_⟩
  · exact ⟨s.fb.get ofs.toNat, Memory.read_mapped hofs, execRdcell_legal hofs s⟩
  · rw [← raiseFault_eq_faultRecorded]
    exact execRdcell_range hofs s

/-- A recorded fault stays the first one's (R202). -/
theorem raiseFault_raiseFault (c d : Cause) (s : State) : raiseFault d (raiseFault c s) = raiseFault c s := by
  rw [raiseFault, if_pos (raiseFault_faulted c s)]

/-- Settles O19: in range the second write stores the byte that stands there (`Memory.set_set`); out of range the second
fault finds the first one recorded. -/
theorem repeatedWrcharIsOneWrchar : Obligations.RepeatedWrcharIsOneWrchar := by
  intro ofs code s hm
  have hexec : exec (.wrchar ofs code) = execWrchar ofs code := rfl
  simp only [execAll, hexec]
  by_cases hofs : ofs.toNat < 800
  · simp only [execWrchar_legal hofs, andThen_of_next, Memory.set_set hm hofs]
  · simp only [execWrchar_range (Nat.not_lt.1 hofs), andThen_of_next, raiseFault_raiseFault]

/-! ### PLOT (R103 to R110) -/

/-- The micro-operations of a legal PLOT, with its cell and its bit as the statements write them (R104 to R107). -/
theorem exec_plot_legal {x : BitVec 7} {y : BitVec 6} (hx : x.toNat < 80) (hy : y.toNat < 60) (on : Bool) (s : State) :
    exec (.plot x y on) s =
      runMicroOps (plotMicroOps Config.dotTag (cellOf x y) (s.fb.get (cellOf x y)) (bitOf x y) on) s := by
  have hbit : dotBit x.toNat y.toNat = bitOf x y := dotBit_eq _ _
  rw [← hbit]
  exact execPlot_legal hx hy on s

theorem cellOf_mapped {x : BitVec 7} (hx : x.toNat < 80) (y : BitVec 6) : cellOf x y < 800 :=
  dotOffset_mapped (y := y.toNat) hx

theorem bitOf_lt (x : BitVec 7) (y : BitVec 6) : bitOf x y < 6 := by
  rw [bitOf, ← dotBit_eq]
  exact dotBit_lt _ _

/-- A legal PLOT runs to its end and leaves the plotted byte in its cell, whatever ticks are taken inside it. -/
theorem exec_plot_runs {x : BitVec 7} {y : BitVec 6} (hx : x.toNat < 80) (hy : y.toNat < 60) (on : Bool) {s : State}
    (hm : s.fb.wf = true) (hs : s.ScanOk) :
    ∃ t, exec (.plot x y on) s = .next t ∧ t.ScanOk ∧
      t.fb = s.fb.set (cellOf x y) (plottedCell Config.dotTag (s.fb.get (cellOf x y)) (bitOf x y) on) := by
  obtain ⟨t, hrun, hscan, hfb⟩ := execPlot_runs hx hy on hs
  refine ⟨t, hrun, hscan, ?_⟩
  rw [hfb hm, dotBit_eq]
  rfl

/-- Settles O21: the micro-operations are `plotMicroOps_eq`, and the framebuffer they leave is `exec_plot_runs`. -/
theorem plotSetsOrClearsItsDot : Obligations.PlotSetsOrClearsItsDot := by
  refine fun x y on s => ⟨Laws.TableRow.plot x y on, fun hx hy hm hs => ?_, fun hdot => ?_⟩
  · obtain ⟨t, hrun, -, hfb⟩ := exec_plot_runs hx hy on hm hs
    have hcell := cellOf_mapped hx y
    refine ⟨t, s.fb.get (cellOf x y), hrun, Memory.read_mapped hcell, ?_, ?_, ?_, execPlot_frame hrun⟩
    · rw [exec_plot_legal hx hy, plotMicroOps_eq]
    · rw [hfb, Memory.read_set_same hm hcell, plottedCell_eq_cellAfterPlot]
    · exact fun a ha => hfb ▸ Memory.read_set_other ha _
  · rw [← raiseFault_eq_faultRecorded]
    exact execPlot_range hdot on s

/-- Settles O22: the read changes nothing, and the writes are `runRest_quiet`. -/
theorem uninterruptedPlotChangesOnlyTheFramebuffer : Obligations.UninterruptedPlotChangesOnlyTheFramebuffer := by
  intro x y on s hx hy hquiet
  have hcell := cellOf_mapped hx y
  have hmapped := plotMicroOps_mapped (t := Config.dotTag) (k := bitOf x y) (b := s.fb.get (cellOf x y)) (on := on)
    hcell
  obtain ⟨ts, hrest, -⟩ := runRest_quiet (fun op hop => hmapped op (List.mem_cons_of_mem _ hop)) hquiet
  rw [exec_plot_legal hx hy, plotMicroOps, runMicroOps, runMicroOp, if_pos hcell, andThen_of_next, hrest]
  exact ⟨_, rfl, rfl⟩

/-! ### Two PLOTs of one dot (R109) -/

/-- Of two PLOTs of one legal dot the framebuffer keeps the second one's, whatever ticks are taken inside either. -/
theorem exec_plot_plot_runs {x : BitVec 7} {y : BitVec 6} (hx : x.toNat < 80) (hy : y.toNat < 60) (p q : Bool)
    {s : State} (hm : s.fb.wf = true) (hs : s.ScanOk) :
    ∃ t u, exec (.plot x y p) s = .next t ∧ exec (.plot x y q) t = .next u ∧
      t.fb = s.fb.set (cellOf x y) (plottedCell Config.dotTag (s.fb.get (cellOf x y)) (bitOf x y) p) ∧
      u.fb = s.fb.set (cellOf x y) (plottedCell Config.dotTag (s.fb.get (cellOf x y)) (bitOf x y) q) := by
  have hcell := cellOf_mapped hx y
  obtain ⟨t, hrun, hscan, hfb⟩ := exec_plot_runs hx hy p hm hs
  obtain ⟨u, hrun', -, hfb'⟩ := exec_plot_runs hx hy q (hfb ▸ Memory.wf_set hm hcell _) hscan
  refine ⟨t, u, hrun, hrun', hfb, ?_⟩
  rw [hfb', hfb, Memory.get_set_same hm, Memory.set_set hm hcell, plottedCell_plottedCell (bitOf_lt x y)]

/-- Settles O25: a legal dot is `exec_plot_plot_runs` with one value twice, and a dot off the canvas writes nothing. -/
theorem repeatedPlotLeavesTheFramebufferAlone : Obligations.RepeatedPlotLeavesTheFramebufferAlone := by
  intro x y on s hm hs
  by_cases hdot : x.toNat < 80 ∧ y.toNat < 60
  · obtain ⟨hx, hy⟩ := hdot
    obtain ⟨t, u, hrun, hrun', hfb, hfb'⟩ := exec_plot_plot_runs hx hy on on hm hs
    exact ⟨t, u, hrun, hrun', hfb'.trans hfb.symm⟩
  · have hout : 80 ≤ x.toNat ∨ 60 ≤ y.toNat := by omega
    exact ⟨_, _, execPlot_range hout on s, execPlot_range hout on _, raiseFault_fb _ _⟩

/-- Settles O26: `exec_plot_plot_runs`, whose second PLOT clears the dot (`plottedCell_off`). -/
theorem plotOnThenOffClearsTheDotOnly : Obligations.PlotOnThenOffClearsTheDotOnly := by
  intro x y s hx hy hm hs
  have hcell := cellOf_mapped hx y
  obtain ⟨t, u, hon, hoff, -, hfb⟩ := exec_plot_plot_runs hx hy true false hm hs
  refine ⟨u, s.fb.get (cellOf x y), ?_, Memory.read_mapped hcell, ?_, ?_⟩
  · simp only [execAll, hon, hoff, andThen_of_next]
  · rw [hfb, Memory.read_set_same hm hcell, plottedCell_off (bitOf_lt x y)]
  · exact fun a ha => hfb ▸ Memory.read_set_other ha _

/-! ### A tick inside a converting PLOT (R110, R236) -/

theorem emitAll_withTurns (es : List BusEvent) (s : State) (ts : List Turn) :
    emitAll es { s with turns := ts } = { emitAll es s with turns := ts } := by
  induction es generalizing s with
  | nil => rfl
  | cons e es ih =>
    have hemit : emit e { s with turns := ts } = { emit e s with turns := ts } := by
      rcases e with _ | ⟨⟨⟩⟩ | ⟨⟨⟩⟩ <;> rfl
    rw [emitAll_cons, hemit, ih, emitAll_cons]

theorem finishLine_withTurns (s : State) (ts : List Turn) :
    finishLine { s with turns := ts } = { finishLine s with turns := ts } := by
  rw [finishLine_eq, finishLine_eq]

/-- A tick does not look at the order of events. -/
theorem runTick_withTurns {s t : State} (hs : s.ScanOk) (h : runTick s = .next t) (ts : List Turn) :
    runTick { s with turns := ts } = .next { t with turns := ts } := by
  have hevents : shiftEvents (List.range 40) { s with turns := ts } = shiftEvents (List.range 40) s := rfl
  rw [runTick_runs (s := { s with turns := ts }) hs, hevents, emitAll_withTurns, finishLine_withTurns,
    ← runTick_next h]

theorem boundary_of_host {s : State} {rest : List Turn} (h : s.turns = .host :: rest) :
    boundary s = .next { s with turns := rest } := by
  rw [boundary, h, boundaryOver]

/-- A boundary at which the Timer presents one TICK runs the tick, and then it is the host's turn (R205). -/
theorem boundary_of_tick {s t : State} (hs : s.ScanOk) (htick : runTick s = .next t) (rest : List Turn) :
    boundary { s with turns := .timer 0x80000000 :: .host :: rest } = .next { t with turns := rest } := by
  have hword : timerWord 0x80000000 { s with turns := .host :: rest } = .next { t with turns := .host :: rest } := by
    rw [timerWord, (onlyTickWordIsTheTableOne .timer _).2 ⟨rfl, rfl⟩]
    exact runTick_withTurns hs htick _
  rw [boundary, boundaryOver, hword, andThen_of_next, boundaryOver]

/-- A read and two writes of one cell, with the host's turn at the first boundary between them and a TICK at the second:
the tick runs on the first byte written, and the second one is written after it. -/
theorem runMicroOps_tick_between_writes {s u : State} {a : Nat} {v w : Byte} {rest : List Turn} (ha : a < 800)
    (hs : s.ScanOk) (hturns : s.turns = .host :: .timer 0x80000000 :: .host :: rest)
    (htick : runTick { s with fb := s.fb.set a v } = .next u) :
    runMicroOps [.read a, .write a v, .write a w] s = .next { u with fb := u.fb.set a w, turns := rest } := by
  have hread : runMicroOp (.read a) s = .next s := if_pos ha
  have hwrite : ∀ (b : Byte) (s' : State), runMicroOp (.write a b) s' = .next { s' with fb := s'.fb.set a b } :=
    fun _ _ => if_pos ha
  have hboundary : boundary { s with fb := s.fb.set a v, turns := .timer 0x80000000 :: .host :: rest } =
      .next { u with turns := rest } :=
    boundary_of_tick (s := { s with fb := s.fb.set a v }) hs htick rest
  simp only [runMicroOps, runRest, hread, hwrite, boundary_of_host hturns, hboundary, andThen_of_next]

/-- Settles O23: the PLOT of a character cell is a read and two writes, with the TICK between the writes
(`runMicroOps_tick_between_writes`). -/
theorem tickInsideAConvertingPlotSeesTheBlankDotCell : Obligations.TickInsideAConvertingPlotSeesTheBlankDotCell := by
  intro x y on s b rest hx hy hm hs hb hchar hturns
  have hcell := cellOf_mapped hx y
  obtain rfl : s.fb.get (cellOf x y) = b := Option.some.inj ((Memory.read_mapped hcell).symm.trans hb)
  have hconverted : (s.fb.set (cellOf x y) dotTagByte).wf = true := Memory.wf_set hm hcell _
  obtain ⟨u, htick, hfb, -⟩ := exec_runs .tick (s := { s with fb := s.fb.set (cellOf x y) dotTagByte }) hs
  have hrun : exec (.plot x y on) s = .next { u with
      fb := u.fb.set (cellOf x y) (cellAfterPlot (s.fb.get (cellOf x y)) (bitOf x y) on), turns := rest } := by
    rw [exec_plot_legal hx hy, plotMicroOps_eq, if_neg hchar]
    exact runMicroOps_tick_between_writes hcell hs hturns htick
  exact ⟨s.fb.set (cellOf x y) dotTagByte, u, _, hconverted, Memory.read_set_same hm hcell _,
    fun a ha => Memory.read_set_other ha _, htick, hrun, rfl, hfb ▸ Memory.read_set_same hconverted hcell _⟩

end Sys2Proof.Machine
end

section
/-! PROOFS. The refresh engine's scan (41_refresh_engine.md): a tick takes the scan state from each line of the frame to the
next, so that the ticks in the trace tell where it stands. -/

namespace Sys2Proof.Machine

/-! ### From line to line (R135, R136, R137) -/

/-- Line L is the last pixel row of its character row exactly when PR is 1. -/
theorem State.AtLine.pr_eq_one_iff {s : State} {L : Nat} (hs : s.AtLine L) : s.pr = 1#4 ↔ L % 12 = 11 := by
  obtain ⟨hpr, -, -, -⟩ := hs
  constructor <;> intro _ <;> bv_omega

/-- Line L lies in the last character row exactly when CR is 1. -/
theorem State.AtLine.cr_eq_one_iff {s : State} {L : Nat} (hs : s.AtLine L) : s.cr = 1#5 ↔ L / 12 = 19 := by
  obtain ⟨-, hcr, -, -⟩ := hs
  constructor <;> intro _ <;> bv_omega

/-- At a line of the frame a tick never stops, whether the marker is asserted there or not (R133, R134). -/
theorem runTick_runs_of_atLine {s : State} {L : Nat} (hs : s.AtLine L) (hL : L < 240) :
    runTick s = .next (finishLine (emitAll (shiftEvents (List.range 40) s) s)) := by
  obtain ⟨-, -, hgrb, hfrp⟩ := hs
  have hcells : ∀ c ∈ List.range Config.charCols, s.frp.toNat + c < Config.fbSize := by
    intro c hc
    have hcol : c < 40 := List.mem_range.1 hc
    show s.frp.toNat + c < 800
    omega
  have hplane : s.grb.toNat + 255 < Config.romSize := by
    show s.grb.toNat + 255 < 3072
    omega
  rw [runTick, shiftColumns_runs hcells hplane, andThen_of_next]

/-- A tick takes line L to the next line of the frame, and the last line of the frame to line 0 with the marker asserted. -/
theorem runTick_atLine {s t : State} {L : Nat} (hs : s.AtLine L) (hL : L < 240) (h : runTick s = .next t) :
    t.AtLine ((L + 1) % 240) ∧ (t.flm = true ↔ L = 239) := by
  have hlastRow := hs.pr_eq_one_iff
  have hlastChars := hs.cr_eq_one_iff
  obtain ⟨hpr, hcr, hgrb, hfrp⟩ := hs
  obtain ⟨epr, ecr, egrb, efrp, eflm⟩ := runTick_scan h
  rw [State.AtLine, epr, ecr, egrb, efrp, eflm]
  by_cases hrow : s.pr = 1#4
  · by_cases hchars : s.cr = 1#5
    · obtain rfl : L = 239 := by
        have hplane := hlastRow.1 hrow
        have hchar := hlastChars.1 hchars
        omega
      simp [hrow, hchars]
    · have hnextRow : (s.cr - 1#5).toNat = s.cr.toNat - 1 ∧ (s.frp + 40#10).toNat = s.frp.toNat + 40 := by
        constructor <;> bv_omega
      have hplane := hlastRow.1 hrow
      have hchar := mt hlastChars.2 hchars
      simp only [hrow, hchars, hnextRow, if_true, if_false, and_false, decide_false, BitVec.reduceToNat,
        Bool.false_eq_true, false_iff]
      omega
  · have hnextPlane : (s.pr - 1#4).toNat = s.pr.toNat - 1 ∧ (s.grb + 256#12).toNat = s.grb.toNat + 256 := by
      constructor <;> bv_omega
    have hplane := mt hlastRow.2 hrow
    simp only [hrow, hnextPlane, if_false, false_and, decide_false, Bool.false_eq_true, false_iff]
    omega

/-- Settles O55: the tick runs from line L (`runTick_runs_of_atLine`) and moves on as `runTick_atLine` says. -/
theorem tickMovesToTheNextLine : Obligations.TickMovesToTheNextLine :=
  fun _ _ hL hs =>
    have hrun := runTick_runs_of_atLine hs hL
    ⟨_, hrun, runTick_atLine hs hL hrun⟩

/-! ### The scan state counted in ticks (R135) -/

/-- A tick is one more tick in the trace, and moves the scan state from line k mod 240 to the line after it. -/
theorem State.ScanFollowsTrace.runTick {s t : State} (hs : s.ScanFollowsTrace) (h : runTick s = .next t) :
    t.ScanFollowsTrace := by
  obtain ⟨hline, -⟩ := hs
  obtain ⟨hnext, hmarker⟩ := runTick_atLine hline (Nat.mod_lt _ (by decide)) h
  rw [State.ScanFollowsTrace, runTick_ticksIn h, ← Nat.mod_add_mod, hmarker]
  exact ⟨hnext, by omega⟩

theorem State.ScanFollowsTrace.raiseFault {s : State} (hs : s.ScanFollowsTrace) (c : Cause) :
    (raiseFault c s).ScanFollowsTrace := by
  simpa [State.ScanFollowsTrace, State.AtLine] using hs

/-- RESET goes to line 0 with the marker released, and empties the trace (R230). -/
theorem applyReset_scanFollowsTrace (s : State) : (applyReset s).ScanFollowsTrace :=
  (by decide : State.reset.ScanFollowsTrace)

/-- No part of a step but a tick and a RESET moves the scan state or the trace. -/
theorem kept_scanFollowsTrace : Kept State.ScanFollowsTrace where
  turns := fun _ _ hs => hs
  fault := fun _ hs => hs.raiseFault _
  tick := fun _ _ hs ht => hs.runTick ht
  anyFault := fun c _ _ hs => hs.raiseFault c
  write := fun _ _ _ _ hs => hs
  respond := fun _ _ hs => hs
  queue := fun _ _ hs => hs
  expanded := fun _ _ _ _ hs => hs
  refuse := fun _ _ hs => hs
  reset := fun s _ => applyReset_scanFollowsTrace s

/-- Settles O56: `applyReset_scanFollowsTrace` at RESET, and `kept_scanFollowsTrace` for every step, with any ticks in it. -/
theorem scanStateFollowsTheTrace : Obligations.ScanStateFollowsTheTrace :=
  ⟨applyReset_scanFollowsTrace State.reset, fun _ _ hs h => kept_scanFollowsTrace.step hs h⟩

end Sys2Proof.Machine
end

section
/-! PROOFS. One tick (41_refresh_engine.md): the events it outputs, the state it leaves, and what it does not look at. -/

namespace Sys2Proof.Machine

open Sys2Proof.Statements

/-! ### The events of a tick (R131, R132) -/

/-- The events of a tick from a state: the shift phase, the LP pulse, the release of the marker if it was asserted, and its
assertion at the end of a frame. -/
def tickEvents (s : State) : List BusEvent :=
  shiftEvents (List.range 40) s ++ [.assertLine .lp, .releaseLine .lp] ++
    (if s.flm then [.releaseLine .flm] else []) ++ (if s.pr = 1#4 ∧ s.cr = 1#5 then [.assertLine .flm] else [])

theorem runTick_events {s t : State} (h : runTick s = .next t) : t.trace = s.trace ++ tickEvents s := by
  simpa [tickEvents] using runTick_trace h

theorem nibblesOf_tickEvents {s t : State} (h : runTick s = .next t) :
    nibblesOf (tickEvents s) = shiftNibbles (List.range 40) s := by
  obtain ⟨es, htrace, hnibbles⟩ := runTick_nibbles h
  rw [runTick_events h] at htrace
  rw [List.append_cancel_left htrace, hnibbles]

theorem shiftEvents_cons (col : Nat) (rest : List Nat) (s : State) :
    shiftEvents (col :: rest) s = columnEvents (glyphOf s col) ++ shiftEvents rest s := rfl

theorem length_shiftEvents (cols : List Nat) (s : State) : (shiftEvents cols s).length = 6 * cols.length := by
  induction cols with
  | nil => rfl
  | cons col rest ih =>
    simp only [shiftEvents_cons, List.length_append, ih, columnEvents, List.length_cons, List.length_nil]
    omega

theorem length_shiftNibbles (cols : List Nat) (s : State) : (shiftNibbles cols s).length = 2 * cols.length := by
  simp [shiftNibbles, Nat.mul_comm]

/-- A tick is 242 events, and one for each move of the marker. -/
theorem length_tickEvents (s : State) :
    (tickEvents s).length = 242 + s.flm.toNat + (decide (s.pr = 1#4 ∧ s.cr = 1#5)).toNat := by
  simp only [tickEvents, List.length_append, length_shiftEvents, List.length_range]
  cases s.flm <;> by_cases hend : s.pr = 1#4 ∧ s.cr = 1#5 <;> simp [hend]

/-- In the shift phase every third event is a nibble, and a CP pulse follows it. -/
theorem shiftEvents_pulses {cols : List Nat} {j : Nat} (hj : j < 2 * cols.length) (s : State) :
    (∃ v, (shiftEvents cols s)[3 * j]? = some (.writeNibble v)) ∧
      (shiftEvents cols s)[3 * j + 1]? = some (.assertLine .cp) ∧
      (shiftEvents cols s)[3 * j + 2]? = some (.releaseLine .cp) := by
  induction cols generalizing j with
  | nil => simp at hj
  | cons col rest ih =>
    match j with
    | 0 => simp [shiftEvents_cons, columnEvents]
    | 1 => simp [shiftEvents_cons, columnEvents]
    | j + 2 =>
      have hrest := ih (j := j) (by simp only [List.length_cons] at hj; omega)
      simpa [shiftEvents_cons, columnEvents, Nat.mul_add] using hrest

/-- Events that no column outputs are not in the shift phase. -/
theorem filter_shiftEvents {p : BusEvent → Bool} (hp : ∀ g, (columnEvents g).filter p = []) (cols : List Nat) (s : State) :
    (shiftEvents cols s).filter p = [] := by
  induction cols with
  | nil => rfl
  | cons col rest ih => rw [shiftEvents_cons, List.filter_append, hp, ih, List.append_nil]

/-- The marker is asserted at line 0 only, which is not the last line of a frame. -/
theorem State.ScanOk.marker_released {s : State} (hs : s.ScanOk) (hend : s.pr = 1#4 ∧ s.cr = 1#5) : s.flm = false := by
  obtain ⟨-, -, -, -, hmarker⟩ := hs
  obtain ⟨hpr, hcr⟩ := hend
  cases hflm : s.flm
  · rfl
  · have hline := hmarker hflm
    simp [State.line, State.charRow, State.plane, hpr, hcr] at hline

/-- Settles O29: the shift phase has its shape column by column (`shiftEvents_pulses`), the LP pulse stands after its 240
events, and the marker's release and its assertion are not both in one tick. -/
theorem tickTraceHasItsShape : Obligations.TickTraceHasItsShape := by
  intro s hs
  have hrun := runTick_runs hs
  have hlength : (shiftEvents (List.range 40) s).length = 240 := length_shiftEvents _ s
  refine ⟨_, tickEvents s, hrun, runTick_events hrun, ?_, ?_, ?_, ?_, ?_⟩
  · rw [nibblesOf_tickEvents hrun, length_shiftNibbles, List.length_range]
  · intro j hj
    simp only [tickEvents, List.append_assoc]
    rw [List.getElem?_append_left (by omega), List.getElem?_append_left (by omega), List.getElem?_append_left (by omega)]
    exact shiftEvents_pulses (by simpa using hj) s
  · simp [tickEvents, hlength]
  · simp [tickEvents, List.getElem?_append_right, hlength]
  · rw [length_tickEvents]
    by_cases hend : s.pr = 1#4 ∧ s.cr = 1#5
    · simp [hs.marker_released hend, hend]
    · cases s.flm <;> simp [hend]

/-! ### The state a tick leaves (R131, R142) -/

/-- A column leaves its low nibble on DOUT and CP released. -/
theorem emitAll_columnEvents (g : Byte) (s : State) :
    emitAll (columnEvents g) s =
      { s with dout := g.extractLsb' 0 4, cp := false, trace := s.trace ++ columnEvents g } := by
  simp [columnEvents, emit]

/-- The shift phase leaves the low nibble of its last column on DOUT and CP released. -/
theorem emitAll_shiftEvents (cols : List Nat) (last : Nat) (s u : State) :
    emitAll (shiftEvents (cols ++ [last]) s) u =
      { u with
        dout := (glyphOf s last).extractLsb' 0 4, cp := false, trace := u.trace ++ shiftEvents (cols ++ [last]) s } := by
  induction cols generalizing u with
  | nil => exact emitAll_columnEvents (glyphOf s last) u
  | cons col rest ih =>
    rw [List.cons_append, shiftEvents_cons, emitAll_append, emitAll_columnEvents, ih, List.append_assoc]

/-- A tick moves the scan state and the lines, and nothing else but the trace. -/
theorem runTick_eq {s t : State} (h : runTick s = .next t) :
    t = { s with
      pr := if s.pr = 1 then 12 else s.pr - 1
      cr := if s.pr = 1 then (if s.cr = 1 then 20 else s.cr - 1) else s.cr
      grb := if s.pr = 1 then 0 else s.grb + 256
      frp := if s.pr = 1 then (if s.cr = 1 then 0 else s.frp + 40) else s.frp
      flm := decide (s.pr = 1 ∧ s.cr = 1)
      dout := (glyphOf s 39).extractLsb' 0 4
      cp := false
      lp := false
      trace := t.trace } := by
  have hshift := emitAll_shiftEvents (List.range 39) 39 s s
  rw [← List.range_succ] at hshift
  have hnext := runTick_next h
  rw [finishLine_eq, hshift] at hnext
  rw [hnext]
  rfl

/-- The byte of each column of the row that the next tick outputs. -/
theorem State.ScanOk.read_column {s : State} (hs : s.ScanOk) {c : Nat} (hc : c < 40) :
    s.fb.read (s.frp.toNat + c) = some (s.fb.get (s.frp.toNat + c)) :=
  Memory.read_mapped (hs.column_mapped hc)

/-- Settles O28: the word by the decoder's own rules, the trace by `runTick_trace`, the next state by `runTick_eq`. -/
theorem tickOutputsOneLineAndAdvancesTheScan : Obligations.TickOutputsOneLineAndAdvancesTheScan := by
  have hword : decode .timer 0x80000000 = .command .tick := decode_encode .tick
  refine ⟨rfl, hword, ((eachPortAcceptsItsOwnOperations _).1 _ hword).2, fun s hs => ?_⟩
  have hrun := runTick_runs hs
  exact ⟨_, fun c => s.fb.get (s.frp.toNat + c), hrun, fun c hc => hs.read_column hc, runTick_trace hrun, runTick_eq hrun⟩

/-! ### The line image of a tick (R140, R145) -/

/-- The high and then the low nibble of a byte are its bits, most significant first. -/
theorem nibbleBits_of_byte (g : Byte) :
    [g.extractLsb' 4 4, g.extractLsb' 0 4].flatMap nibbleBits = byteBits g := by
  simp [nibbleBits, byteBits, List.range_succ]

theorem lineBits_tickEvents {s t : State} (h : runTick s = .next t) :
    lineBits (tickEvents s) = (List.range 40).flatMap fun c => byteBits (glyphOf s c) := by
  simp only [lineBits, nibblesOf_tickEvents h, shiftNibbles, List.flatMap_assoc, nibbleBits_of_byte]

/-- Settles O34: the line image is that of the glyph bytes looked up (`lineBits_tickEvents`), at the addresses at which a
line boundary has GRB and FRP. -/
theorem tickRendersTheGlyphBytesOfItsLine : Obligations.TickRendersTheGlyphBytesOfItsLine := by
  intro s hs
  have hrun := runTick_runs hs
  obtain ⟨-, -, hgrb, hfrp, -⟩ := id hs
  simp only [State.plane] at hgrb
  simp only [State.charRow] at hfrp
  refine ⟨_, tickEvents s, fun c => s.fb.get (s.frp.toNat + c), hrun, runTick_events hrun, ?_, ?_⟩
  · rw [← hfrp]
    exact fun c hc => hs.read_column hc
  · rw [← hgrb]
    exact lineBits_tickEvents hrun

/-! ### What a tick does not look at (R134, R144) -/

/-- The state over another framebuffer and with another STATUS. -/
def State.over (m : Memory) (f : Bool) (c : Cause) (s : State) : State := { s with fb := m, faulted := f, cause := c }

theorem shiftColumn_over {m : Memory} {s : State} {col : Nat}
    (hm : m.read (s.frp.toNat + col) = s.fb.read (s.frp.toNat + col)) (f : Bool) (c : Cause) :
    shiftColumn col (s.over m f c) = andThen (shiftColumn col s) fun t => .next (t.over m f c) := by
  simp only [shiftColumn, State.over, hm]
  cases s.fb.read (s.frp.toNat + col) with
  | none => rfl
  | some code =>
    cases hrom : romRead (s.grb.toNat + code.toNat) with
    | none => simp [hrom, andThen]
    | some g => simp [hrom, andThen, emitAll_columnEvents]

theorem shiftColumns_over {m : Memory} {cols : List Nat} {s : State}
    (hm : ∀ col ∈ cols, m.read (s.frp.toNat + col) = s.fb.read (s.frp.toNat + col)) (f : Bool) (c : Cause) :
    shiftColumns cols (s.over m f c) = andThen (shiftColumns cols s) fun t => .next (t.over m f c) := by
  induction cols generalizing s with
  | nil => rfl
  | cons col rest ih =>
    rw [shiftColumns, shiftColumn_over (hm col List.mem_cons_self), shiftColumns]
    cases hcol : shiftColumn col s with
    | next u =>
      have hu := shiftColumn_next hcol
      refine ih fun col' hmem => ?_
      rw [hu, emitAll_frp, emitAll_fb]
      exact hm col' (List.mem_cons_of_mem _ hmem)
    | fault _ => rfl
    | refused _ => rfl

theorem finishLine_over (m : Memory) (f : Bool) (c : Cause) (s : State) :
    finishLine (s.over m f c) = (finishLine s).over m f c := by
  rw [finishLine_eq, finishLine_eq]
  rfl

/-- Of the framebuffer a tick looks at the cells of its row only, and of STATUS at nothing. -/
theorem runTick_over {m : Memory} {s : State}
    (hm : ∀ col, col < 40 → m.read (s.frp.toNat + col) = s.fb.read (s.frp.toNat + col)) (f : Bool) (c : Cause) :
    runTick (s.over m f c) = andThen (runTick s) fun t => .next (t.over m f c) := by
  rw [runTick, shiftColumns_over (fun col hcol => hm col (List.mem_range.1 hcol)), runTick]
  cases shiftColumns (List.range Config.charCols) s with
  | next u => simp only [andThen_of_next, finishLine_over]
  | fault _ => rfl
  | refused _ => rfl

/-- Settles O30: `runTick_over` with STATUS as it was, which the tick keeps. -/
theorem tickReadsOnlyTheCellsOfItsRow : Obligations.TickReadsOnlyTheCellsOfItsRow := by
  intro s t m hm h
  have hover : runTick { s with fb := m } = andThen (runTick s) fun t => .next (t.over m s.faulted s.cause) :=
    runTick_over hm s.faulted s.cause
  have hrun : runTick s = .next t := h
  have hstatus : t.over m s.faulted s.cause = { t with fb := m } := by
    rw [← runTick_faulted hrun, ← runTick_cause hrun, State.over]
  rw [hrun, andThen_of_next, hstatus] at hover
  exact hover

/-- Settles O31: `runTick_over` with the framebuffer as it was, which the tick keeps. -/
theorem tickRunsTheSameWhateverStatusHolds : Obligations.TickRunsTheSameWhateverStatusHolds := by
  intro s f c
  have hover : exec .tick { s with faulted := f, cause := c } =
      andThen (exec .tick s) fun t => .next (t.over s.fb f c) := runTick_over (fun _ _ => rfl) f c
  rw [hover]
  cases hrun : exec .tick s with
  | next t =>
    have hfb : t.fb = s.fb := runTick_fb hrun
    rw [andThen_of_next, ← hfb]
    rfl
  | fault _ => rfl
  | refused _ => rfl

end Sys2Proof.Machine
end

section
/-! PROOFS. Any number of ticks from the top of a frame (41_refresh_engine.md): where the scan state stands, how often the
marker moves, and what the nibbles of a frame show. -/

namespace Sys2Proof.Machine

/-! ### One tick after the others -/

theorem ticks_succ (k : Nat) (s : State) : ticks (k + 1) s = andThen (ticks k s) runTick := by
  induction k generalizing s with
  | zero =>
    have hone : ticks 1 s = andThen (runTick s) .next := rfl
    rw [hone]
    cases hrun : runTick s <;> simp only [ticks, List.replicate_zero, execAll, andThen, hrun]
  | succ k ih =>
    have hfirst : ∀ n, ticks (n + 1) s = andThen (runTick s) (ticks n) := fun _ => rfl
    rw [hfirst, hfirst]
    cases runTick s with
    | next u => exact ih u
    | fault _ => rfl
    | refused _ => rfl

/-- Ticks from the top of a frame run on from line to line, with the marker asserted after each end of a frame. What holds
of the state and of the events output so far, and is kept by each tick, holds after any number of them. -/
theorem ticks_run {P : Nat → State → List BusEvent → Prop} {s : State} (hs : s.AtLine 0) (hstart : P 0 s [])
    (hstep : ∀ k u v es, u.AtLine (k % 240) → runTick u = .next v → (v.flm = true ↔ k % 240 = 239) → P k u es →
      P (k + 1) v (es ++ tickEvents u)) (k : Nat) :
    ∃ t es, ticks k s = .next t ∧ t.AtLine (k % 240) ∧ (0 < k → (t.flm = true ↔ k % 240 = 0)) ∧
      t.trace = s.trace ++ es ∧ P k t es := by
  induction k with
  | zero => exact ⟨s, [], rfl, hs, nofun, (List.append_nil _).symm, hstart⟩
  | succ k ih =>
    obtain ⟨u, es, hticks, hline, -, htrace, hu⟩ := ih
    have hL : k % 240 < 240 := Nat.mod_lt _ (by decide)
    have hrun := runTick_runs_of_atLine hline hL
    obtain ⟨hnext, hmarker⟩ := runTick_atLine hline hL hrun
    refine ⟨_, es ++ tickEvents u, ?_, ?_, fun _ => ?_, ?_, hstep k u _ es hline hrun hmarker hu⟩
    · rw [ticks_succ, hticks, andThen_of_next, hrun]
    · rwa [← Nat.mod_add_mod]
    · rw [hmarker]
      omega
    · rw [runTick_events hrun, htrace, List.append_assoc]

/-! ### The scan state and the rest of the machine (R135) -/

/-- Nothing but the scan state, the lines and the trace differs. -/
abbrev State.SameOutsideScan (t s : State) : Prop :=
  t = { s with
    pr := t.pr, cr := t.cr, grb := t.grb, frp := t.frp, flm := t.flm, dout := t.dout, cp := t.cp, lp := t.lp,
    trace := t.trace }

theorem runTick_sameOutsideScan {s t : State} (h : runTick s = .next t) : t.SameOutsideScan s := by
  rw [State.SameOutsideScan, runTick_eq h]

theorem State.SameOutsideScan.trans {s u v : State} (huv : v.SameOutsideScan u) (hsu : u.SameOutsideScan s) :
    v.SameOutsideScan s :=
  Eq.trans huv (by rw [hsu])

/-- Settles O32: no tick is `rfl`, and after one or more `ticks_run` gives the line and the marker. -/
theorem scanStateAfterAnyNumberOfTicks : Obligations.ScanStateAfterAnyNumberOfTicks := by
  intro k s hs hflm
  obtain rfl | hk := Nat.eq_zero_or_pos k
  · exact ⟨s, rfl, hs, by simp [hflm], rfl⟩
  · obtain ⟨t, es, hticks, hline, hmarker, -, hsame⟩ := ticks_run (P := fun _ t _ => t.SameOutsideScan s) hs rfl
      (fun _ _ _ _ _ hrun _ hu => (runTick_sameOutsideScan hrun).trans hu) k
    refine ⟨t, hticks, hline, ?_, hsame⟩
    rw [hmarker hk]
    omega

/-! ### The marker in the events of a frame (R136, R137) -/

/-- Whether an event releases the frame marker. -/
abbrev isMarkerRelease (e : BusEvent) : Bool := decide (e = .releaseLine .flm)

/-- A tick asserts the marker exactly when it leaves it asserted. -/
theorem markers_tickEvents {s t : State} (h : runTick s = .next t) :
    ((tickEvents s).filter isFrameMarker).length = t.flm.toNat := by
  obtain ⟨-, -, -, -, hflm⟩ := runTick_scan h
  simp only [tickEvents, List.filter_append, filter_shiftEvents (p := isFrameMarker) (fun _ => rfl), hflm]
  cases s.flm <;> by_cases hend : s.pr = 1#4 ∧ s.cr = 1#5 <;> simp [hend, isFrameMarker]

/-- A tick releases the marker exactly when it finds it asserted. -/
theorem releases_tickEvents (s : State) : ((tickEvents s).filter isMarkerRelease).length = s.flm.toNat := by
  simp only [tickEvents, List.filter_append, filter_shiftEvents (p := isMarkerRelease) (fun _ => rfl)]
  cases s.flm <;> by_cases hend : s.pr = 1#4 ∧ s.cr = 1#5 <;> simp [hend]

/-- The assertion of the marker is the last event of a tick. -/
theorem getLast?_tickEvents {s t : State} (h : runTick s = .next t) (ht : t.flm = true) :
    (tickEvents s).getLast? = some (.assertLine .flm) := by
  obtain ⟨-, -, -, -, hflm⟩ := runTick_scan h
  have hend : s.pr = 1#4 ∧ s.cr = 1#5 := of_decide_eq_true (hflm.symm.trans ht)
  rw [tickEvents, if_pos hend, List.getLast?_concat]

/-- What k ticks from the top of a frame, which output the events es and leave the state t, do to the marker: one assertion
for each frame, and a release for each assertion, that of before the ticks included, which does not still stand. -/
structure MarkerCounts (s : State) (k : Nat) (t : State) (es : List BusEvent) : Prop where
  asserted : (es.filter isFrameMarker).length = k / 240
  released : (es.filter isMarkerRelease).length + t.flm.toNat = k / 240 + s.flm.toNat
  length : es.length = k * 242 + (es.filter isFrameMarker).length + (es.filter isMarkerRelease).length
  last : 0 < k → t.flm = true → es.getLast? = some (.assertLine .flm)

theorem markerCounts_start (s : State) : MarkerCounts s 0 s [] where
  asserted := rfl
  released := rfl
  length := rfl
  last := nofun

theorem MarkerCounts.step {s u v : State} {k : Nat} {es : List BusEvent} (hu : MarkerCounts s k u es)
    (hrun : runTick u = .next v) (hmarker : v.flm = true ↔ k % 240 = 239) :
    MarkerCounts s (k + 1) v (es ++ tickEvents u) := by
  obtain ⟨hasserted, hreleased, hlength, -⟩ := hu
  have hframe : k / 240 + v.flm.toNat = (k + 1) / 240 := by
    by_cases hlast : k % 240 = 239
    · rw [hmarker.2 hlast, Bool.toNat_true]
      omega
    · rw [Bool.eq_false_iff.2 (mt hmarker.1 hlast), Bool.toNat_false]
      omega
  obtain ⟨-, -, -, -, hflm⟩ := runTick_scan hrun
  constructor
  · rw [List.filter_append, List.length_append, markers_tickEvents hrun, hasserted, hframe]
  · rw [List.filter_append, List.length_append, releases_tickEvents]
    omega
  · simp only [List.filter_append, List.length_append, markers_tickEvents hrun, releases_tickEvents, length_tickEvents,
      ← hflm]
    omega
  · intro _ hv
    rw [List.getLast?_append, getLast?_tickEvents hrun hv, Option.some_or]

/-- Settles O33: `MarkerCounts` after 240 ticks, kept by each tick (`MarkerCounts.step`). -/
theorem frameHasOneMarkerAndEndsWithIt : Obligations.FrameHasOneMarkerAndEndsWithIt := by
  intro s hs
  obtain ⟨t, es, hticks, hline, hmarker, htrace, hasserted, hreleased, hlength, hlast⟩ :=
    ticks_run (P := MarkerCounts s) hs (markerCounts_start s) (fun _ _ _ _ _ hrun hm hu => hu.step hrun hm) 240
  have hflm : t.flm = true := (hmarker (by decide)).2 rfl
  have hreleases : (es.filter isMarkerRelease).length = if s.flm = true then 1 else 0 := by
    rw [hflm, Bool.toNat_true] at hreleased
    have hstart : s.flm.toNat = if s.flm = true then 1 else 0 := Bool.cond_eq_ite ..
    omega
  exact ⟨t, es, hticks, hline, hflm, htrace, hasserted, hlast (by decide) hflm, hreleases,
    by rw [hlength, hasserted, hreleases]⟩

/-! ### What the nibbles of a frame show (R136, R140) -/

/-- The glyph byte of line L at a column of a framebuffer: that of plane L mod 12 for the cell in row L div 12. -/
def lineGlyph (m : Memory) (L col : Nat) : Byte := Config.glyphRom (L % 12 * 256 + (m.get (L / 12 * 40 + col)).toNat)

theorem State.AtLine.glyphOf_eq {s : State} {L : Nat} (hs : s.AtLine L) (col : Nat) :
    glyphOf s col = lineGlyph s.fb L col := by
  obtain ⟨-, -, hgrb, hfrp⟩ := hs
  rw [glyphOf, lineGlyph, hgrb, hfrp]

/-- Nibbles i and i + 1 are the high and the low nibble of a glyph byte. -/
abbrev ShowsGlyph (ns : List Nibble) (i : Nat) (g : Byte) : Prop :=
  ns[i]? = some (g.extractLsb' 4 4) ∧ ns[i + 1]? = some (g.extractLsb' 0 4)

theorem ShowsGlyph.append_left {ns : List Nibble} {i : Nat} {g : Byte} (h : ShowsGlyph ns i g) (ms : List Nibble) :
    ShowsGlyph (ns ++ ms) i g := by
  obtain ⟨hhigh, hlow⟩ := h
  obtain ⟨hi, -⟩ := List.getElem?_eq_some_iff.1 hlow
  exact ⟨by rw [List.getElem?_append_left (by omega), hhigh], by rw [List.getElem?_append_left hi, hlow]⟩

theorem ShowsGlyph.append_right {ms : List Nibble} {i : Nat} {g : Byte} (h : ShowsGlyph ms i g) (ns : List Nibble) :
    ShowsGlyph (ns ++ ms) (ns.length + i) g := by
  simpa [ShowsGlyph, Nat.add_assoc, List.getElem?_append_right] using h

/-- What k ticks from the top of a frame show, which output the events es and leave the state t: line after line of the
framebuffer, which they leave as it was. -/
structure LinesShown (s : State) (k : Nat) (t : State) (es : List BusEvent) : Prop where
  fb : t.fb = s.fb
  count : (nibblesOf es).length = 80 * k
  shown : ∀ L c, L < k → c < 40 → ShowsGlyph (nibblesOf es) (80 * L + 2 * c) (lineGlyph s.fb (L % 240) c)

theorem linesShown_start (s : State) : LinesShown s 0 s [] where
  fb := rfl
  count := rfl
  shown := nofun

theorem LinesShown.step {s u v : State} {k : Nat} {es : List BusEvent} (hu : LinesShown s k u es)
    (hline : u.AtLine (k % 240)) (hrun : runTick u = .next v) : LinesShown s (k + 1) v (es ++ tickEvents u) := by
  obtain ⟨hfb, hcount, hshown⟩ := hu
  constructor
  · rw [runTick_fb hrun, hfb]
  · rw [nibblesOf_append, List.length_append, hcount, nibblesOf_tickEvents hrun, length_shiftNibbles, List.length_range]
    omega
  · intro L c hL hc
    rw [nibblesOf_append, nibblesOf_tickEvents hrun]
    obtain hbefore | rfl := Nat.lt_succ_iff_lt_or_eq.1 hL
    · exact (hshown L c hbefore hc).append_left _
    · have hcolumn := shiftNibbles_getElem? (List.getElem?_range hc) u
      rw [hline.glyphOf_eq, hfb] at hcolumn
      rw [← hcount]
      exact ShowsGlyph.append_right hcolumn _

/-- Settles O35: `LinesShown` after 240 ticks, kept by each tick (`LinesShown.step`). -/
theorem frameIsTheFramebufferThroughTheGlyphTable : Obligations.FrameIsTheFramebufferThroughTheGlyphTable := by
  intro s hs
  obtain ⟨t, es, hticks, -, -, htrace, -, hcount, hshown⟩ :=
    ticks_run (P := LinesShown s) hs (linesShown_start s) (fun _ _ _ _ hline hrun _ hu => hu.step hline hrun) 240
  refine ⟨t, es, hticks, htrace, hcount, fun L c hL hc => ?_⟩
  have hcell : L / 12 * 40 + c < 800 := by omega
  refine ⟨s.fb.get (L / 12 * 40 + c), Memory.read_mapped hcell, ?_⟩
  have hline := hshown L c hL hc
  rw [Nat.mod_eq_of_lt hL] at hline
  exact hline

end Sys2Proof.Machine
end

section
/-! PROOFS. Text and shape (42_text_and_shape.md): what SETCUR, PUTC and PUTS expand to and when they are refused, the stores
of a DRAWBOX, and the outline they leave in the framebuffer. -/

namespace Sys2Proof.Machine

open Sys2Proof.Statements

/-! ### SETCUR, PUTC and PUTS (R171 to R173) -/

/-- Settles O47: the two branches of the expander's bounds check. -/
theorem setcurSetsTheCursorAndIssuesNothing : Obligations.SetcurSetsTheCursorAndIssuesNothing := by
  refine fun row col cursor => ⟨fun hrow hcol => if_pos ?_, fun houtside => if_neg ?_⟩
  · exact ⟨Nat.lt_succ_of_le hrow, Nat.lt_succ_of_le hcol⟩
  · show ¬(row < 20 ∧ col < 40)
    omega

theorem expandPutc_of_undefined (b : Byte) : expandPutc b none = none := rfl

theorem expandPutc_of_ge {c : Nat} (hc : 800 ≤ c) (b : Byte) : expandPutc b (some c) = none :=
  if_neg (Nat.not_lt.2 hc)

/-- Settles O48: the three cases of CURSOR; an offset below 800 is the number its 10-bit operand holds. -/
theorem putcStoresAtTheCursorAndAdvancesIt : Obligations.PutcStoresAtTheCursorAndAdvancesIt := by
  refine fun b => ⟨expandPutc_of_undefined b, fun c hc => expandPutc_of_ge hc b, fun c hc => ?_⟩
  exact ⟨BitVec.ofNat 10 c, Nat.mod_eq_of_lt (by omega), expandPutc_of_lt hc b⟩

/-- A PUTS whose text is empty issues nothing, even while CURSOR is undefined. -/
theorem expandPuts_of_empty {str : List Byte} (hempty : str.takeWhile (· ≠ 0) = []) (cursor : Option Nat) :
    expandPuts str cursor = some ⟨cursor, []⟩ := by
  cases str with
  | nil => rfl
  | cons b str =>
    have hb : b = 0 := by simpa using hempty
    exact if_pos hb

/-- A PUTS is refused where its first PUTC is. -/
theorem expandPuts_of_putc_refused {b : Byte} (hb : b ≠ 0) {cursor : Option Nat} (hrefused : expandPutc b cursor = none)
    (str : List Byte) : expandPuts (b :: str) cursor = none := by
  simp only [expandPuts, if_neg hb, hrefused]

/-- A PUTS is refused where the rest of it is, after its first PUTC. -/
theorem expandPuts_of_rest_refused {b : Byte} (hb : b ≠ 0) {c : Nat} (hc : c < 800) {str : List Byte}
    (hrefused : expandPuts str (some (c + 1)) = none) : expandPuts (b :: str) (some c) = none := by
  simp only [expandPuts, if_neg hb, expandPutc_of_lt hc, hrefused]

/-- A PUTS whose text is not empty is refused while CURSOR is undefined. -/
theorem expandPuts_of_undefined {str : List Byte} (hne : str.takeWhile (· ≠ 0) ≠ []) : expandPuts str none = none := by
  cases str with
  | nil => exact absurd rfl hne
  | cons b str =>
    have hb : b ≠ 0 := by simpa using hne
    exact expandPuts_of_putc_refused hb (expandPutc_of_undefined b) str

/-- A PUTS whose text runs beyond offset 799 is refused: the PUTC that reaches offset 800 is. -/
theorem expandPuts_of_overrun {str : List Byte} {c : Nat} (hne : str.takeWhile (· ≠ 0) ≠ [])
    (hover : 800 < c + (str.takeWhile (· ≠ 0)).length) : expandPuts str (some c) = none := by
  induction str generalizing c with
  | nil => exact absurd rfl hne
  | cons b str ih =>
    have hb : b ≠ 0 := by simpa using hne
    obtain hc | hc := Nat.lt_or_ge c 800
    · rw [List.takeWhile_cons_of_pos (by simpa using hb), List.length_cons] at hover
      have hrest : str.takeWhile (· ≠ 0) ≠ [] := List.ne_nil_of_length_pos (by omega)
      exact expandPuts_of_rest_refused hb hc (ih hrest (by omega))
    · exact expandPuts_of_putc_refused hb (expandPutc_of_ge hc b) str

/-- Settles O49: the empty text, the two refusals, and the text that fits (`expandPuts_of_fits`). -/
theorem putsStoresTheBytesBeforeTheZero : Obligations.PutsStoresTheBytesBeforeTheZero := by
  intro str cursor text
  refine ⟨fun hempty => expandPuts_of_empty hempty cursor, ?_, ?_, ?_⟩
  · rintro hne rfl
    exact expandPuts_of_undefined hne
  · rintro c rfl hne hover
    exact expandPuts_of_overrun hne hover
  · rintro c rfl hfit
    exact expandPuts_of_fits hfit

/-! ### A list of stores over the framebuffer (R56, R100) -/

/-- The memory after a list of stores, an offset and a byte each, in order. -/
def Memory.setAll : Memory → List (Nat × Byte) → Memory
  | m, [] => m
  | m, (a, v) :: stores => Memory.setAll (m.set a v) stores

/-- Stores at other offsets leave a byte alone. -/
theorem Memory.read_setAll_other {m : Memory} {a : Nat} {stores : List (Nat × Byte)} (h : ∀ v, (a, v) ∉ stores) :
    (m.setAll stores).read a = m.read a := by
  induction stores generalizing m with
  | nil => rfl
  | cons p stores ih =>
    obtain ⟨b, w⟩ := p
    have hne : a ≠ b := fun hab => h w (by simp [hab])
    rw [Memory.setAll, ih fun v hv => h v (List.mem_cons_of_mem _ hv), Memory.read_set_other hne]

/-- Of stores at distinct mapped offsets each one's byte stands at its offset. -/
theorem Memory.read_setAll_of_mem {m : Memory} (hm : m.wf = true) {stores : List (Nat × Byte)}
    (hmapped : ∀ p ∈ stores, p.1 < 800) (hdistinct : (stores.map Prod.fst).Nodup) {a : Nat} {v : Byte}
    (h : (a, v) ∈ stores) : (m.setAll stores).read a = some v := by
  induction stores generalizing m with
  | nil => cases h
  | cons p stores ih =>
    obtain ⟨hp, hmapped⟩ := List.forall_mem_cons.1 hmapped
    obtain ⟨hfresh, hdistinct⟩ := List.nodup_cons.1 hdistinct
    obtain rfl | h := List.mem_cons.1 h
    · rw [Memory.setAll, Memory.read_setAll_other fun w hw => hfresh (List.mem_map.2 ⟨_, hw, rfl⟩),
        Memory.read_set_same hm hp]
    · exact ih (Memory.wf_set hm hp p.2) hmapped hdistinct h

/-- The WRCHARs of stores at mapped offsets complete, and move the framebuffer only. -/
theorem execAll_stores {stores : List (Nat × Byte)} (hmapped : ∀ p ∈ stores, p.1 < 800) (s : State) :
    execAll (stores.map storeOf) s = .next { s with fb := s.fb.setAll stores } := by
  induction stores generalizing s with
  | nil => rfl
  | cons p stores ih =>
    obtain ⟨hp, hmapped⟩ := List.forall_mem_cons.1 hmapped
    have hfirst : exec (storeOf p) s = .next { s with fb := s.fb.set p.1 p.2 } := exec_storeAt hp p.2 s
    rw [List.map_cons, execAll, hfirst, andThen_of_next, ih hmapped, Memory.setAll]

/-! ### The stores of a DRAWBOX (R174 to R176) -/

/-- R176's precondition: no side shorter than 2, and the box inside the framebuffer. -/
abbrev BoxFits (r c w h : Nat) : Prop := (2 ≤ w ∧ 2 ≤ h) ∧ (r + h ≤ 20 ∧ c + w ≤ 40)

/-- The stores of the inner part of a horizontal edge (`horizontalEdge`). -/
def horizontalStores (row c w : Nat) : List (Nat × Byte) :=
  (List.range (w - 2)).map fun j => (row * 40 + (c + 1 + j), Config.boxH)

/-- The stores of the inner part of a vertical edge (`verticalEdge`). -/
def verticalStores (r h col : Nat) : List (Nat × Byte) :=
  (List.range (h - 2)).map fun i => ((r + 1 + i) * 40 + col, Config.boxV)

/-- The stores of a DRAWBOX in the order of R175 (`boxCommands`). -/
def boxStores (r c w h : Nat) : List (Nat × Byte) :=
  [(r * 40 + c, Config.boxUL)] ++ horizontalStores r c w ++ [(r * 40 + (c + w - 1), Config.boxUR)] ++
  verticalStores r h (c + w - 1) ++ [((r + h - 1) * 40 + (c + w - 1), Config.boxLR)] ++ verticalStores r h c ++
  [((r + h - 1) * 40 + c, Config.boxLL)] ++ horizontalStores (r + h - 1) c w

theorem map_storeOf_horizontalStores (row c w : Nat) :
    (horizontalStores row c w).map storeOf = horizontalEdge row c w := List.map_map

theorem map_storeOf_verticalStores (r h col : Nat) :
    (verticalStores r h col).map storeOf = verticalEdge r h col := List.map_map

theorem map_storeOf_boxStores (r c w h : Nat) : (boxStores r c w h).map storeOf = boxCommands r c w h := by
  simp only [boxStores, List.map_append, map_storeOf_horizontalStores, map_storeOf_verticalStores]
  rfl

theorem expandDrawbox_of_fits {r c w h : Nat} (hfits : BoxFits r c w h) (cursor : Option Nat) :
    expand (.drawbox r c w h) cursor = some ⟨cursor, (boxStores r c w h).map storeOf⟩ := by
  rw [map_storeOf_boxStores]
  exact if_pos (and_assoc.1 hfits)

theorem expandDrawbox_of_not_fits {r c w h : Nat} (hfits : ¬BoxFits r c w h) (cursor : Option Nat) :
    expand (.drawbox r c w h) cursor = none :=
  if_neg (mt and_assoc.2 hfits)

theorem length_boxStores {r c w h : Nat} (hfits : BoxFits r c w h) :
    (boxStores r c w h).length = 2 * (w + h) - 4 := by
  simp only [boxStores, horizontalStores, verticalStores, List.length_append, List.length_map, List.length_range,
    List.length_singleton]
  omega

theorem mem_horizontalStores {row c w i j : Nat} {v : Byte} (hc : c + w ≤ 40) (hj : j < 40) :
    (i * 40 + j, v) ∈ horizontalStores row c w ↔ (i = row ∧ c < j ∧ j < c + w - 1) ∧ v = Config.boxH := by
  simp only [horizontalStores, List.mem_map, List.mem_range, Prod.mk.injEq]
  constructor
  · rintro ⟨k, hk, hoffset, rfl⟩
    exact ⟨by omega, rfl⟩
  · rintro ⟨hcell, rfl⟩
    exact ⟨j - (c + 1), by omega, by omega, rfl⟩

theorem mem_verticalStores {r h col i j : Nat} {v : Byte} (hcol : col < 40) (hj : j < 40) :
    (i * 40 + j, v) ∈ verticalStores r h col ↔ (j = col ∧ r < i ∧ i < r + h - 1) ∧ v = Config.boxV := by
  simp only [verticalStores, List.mem_map, List.mem_range, Prod.mk.injEq]
  constructor
  · rintro ⟨k, hk, hoffset, rfl⟩
    exact ⟨by omega, rfl⟩
  · rintro ⟨hcell, rfl⟩
    exact ⟨i - (r + 1), by omega, by omega, rfl⟩

/-- Two cells with one offset are one cell (R10). -/
theorem cell_eq_iff {i j row col : Nat} (hj : j < 40) (hcol : col < 40) :
    i * 40 + j = row * 40 + col ↔ i = row ∧ j = col := by omega

/-- The cells and codes of the eight groups of R175, in their order. -/
theorem mem_boxStores {r c w h i j : Nat} {v : Byte} (hfits : BoxFits r c w h) (hj : j < 40) :
    (i * 40 + j, v) ∈ boxStores r c w h ↔
      (i = r ∧ j = c) ∧ v = Config.boxUL ∨
      (i = r ∧ c < j ∧ j < c + w - 1) ∧ v = Config.boxH ∨
      (i = r ∧ j = c + w - 1) ∧ v = Config.boxUR ∨
      (j = c + w - 1 ∧ r < i ∧ i < r + h - 1) ∧ v = Config.boxV ∨
      (i = r + h - 1 ∧ j = c + w - 1) ∧ v = Config.boxLR ∨
      (j = c ∧ r < i ∧ i < r + h - 1) ∧ v = Config.boxV ∨
      (i = r + h - 1 ∧ j = c) ∧ v = Config.boxLL ∨
      (i = r + h - 1 ∧ c < j ∧ j < c + w - 1) ∧ v = Config.boxH := by
  have hc : c < 40 := by omega
  have hright : c + w - 1 < 40 := by omega
  simp only [boxStores, List.mem_append, List.mem_singleton, Prod.mk.injEq, mem_horizontalStores hfits.2.2 hj,
    mem_verticalStores hc hj, mem_verticalStores hright hj, cell_eq_iff hj hc, cell_eq_iff hj hright, or_assoc]

theorem boxStores_mapped {r c w h : Nat} (hfits : BoxFits r c w h) : ∀ p ∈ boxStores r c w h, p.1 < 800 := by
  rintro ⟨a, v⟩ hp
  have ha : a = a / 40 * 40 + a % 40 := by omega
  rw [ha, mem_boxStores hfits (by omega)] at hp
  show a < 800
  omega

theorem map_fst_horizontalStores (row c w : Nat) :
    (horizontalStores row c w).map Prod.fst = List.range' (row * 40 + (c + 1)) (w - 2) := by
  simp [horizontalStores, List.range'_eq_map_range, Function.comp_def, Nat.add_assoc]

theorem map_fst_verticalStores (r h col : Nat) :
    (verticalStores r h col).map Prod.fst = List.range' ((r + 1) * 40 + col) (h - 2) 40 := by
  apply List.ext_getElem
  · simp [verticalStores]
  · intro k _ _
    simp only [verticalStores, List.getElem_map, List.getElem_range, List.getElem_range']
    omega

/-- The offsets of a DRAWBOX's stores are four runs: the top row, the right and the left column below it, and the bottom row
between them. -/
theorem map_fst_boxStores {r c w h : Nat} (hw : 2 ≤ w) (hh : 2 ≤ h) :
    (boxStores r c w h).map Prod.fst =
      List.range' (r * 40 + c) w ++ List.range' ((r + 1) * 40 + (c + w - 1)) (h - 1) 40 ++
      List.range' ((r + 1) * 40 + c) (h - 1) 40 ++ List.range' ((r + h - 1) * 40 + (c + 1)) (w - 2) := by
  obtain ⟨w, rfl⟩ := Nat.exists_eq_add_of_le' hw
  obtain ⟨h, rfl⟩ := Nat.exists_eq_add_of_le' hh
  have htop : List.range' (r * 40 + c) (w + 2) =
      [r * 40 + c] ++ List.range' (r * 40 + (c + 1)) w ++ [r * 40 + (c + (w + 2) - 1)] := by
    have hlast : r * 40 + (c + (w + 2) - 1) = r * 40 + c + 1 * (w + 1) := by omega
    rw [hlast, List.range'_concat, List.range'_succ]
    rfl
  have hcolumn (col : Nat) : List.range' ((r + 1) * 40 + col) (h + 1) 40 =
      List.range' ((r + 1) * 40 + col) h 40 ++ [(r + (h + 2) - 1) * 40 + col] := by
    have hlast : (r + (h + 2) - 1) * 40 + col = (r + 1) * 40 + col + 40 * h := by omega
    rw [hlast, List.range'_concat]
  simp [boxStores, map_fst_horizontalStores, map_fst_verticalStores, htop, hcolumn]

/-- The four runs share no offset, since the sides of each pair lie apart (R175). -/
theorem boxStores_distinct {r c w h : Nat} (hfits : BoxFits r c w h) : ((boxStores r c w h).map Prod.fst).Nodup := by
  obtain ⟨⟨hw, hh⟩, hr, hc⟩ := hfits
  rw [map_fst_boxStores hw hh]
  refine (((List.nodup_range' 1).append (List.nodup_range' 40) ?_).append (List.nodup_range' 40) ?_).append
    (List.nodup_range' 1) ?_
  all_goals
    intro a
    simp only [List.mem_append, List.mem_range']
    omega

/-- Settles O51: the stores lie at distinct mapped offsets, so each cell of R174's table holds the byte its store wrote
(`mem_boxStores`), and a cell outside the table the byte it had. -/
theorem drawboxLeavesItsOutline : Obligations.DrawboxLeavesItsOutline := by
  intro s r c w h hwf hw hh hr hc
  have hfits : BoxFits r c w h := ⟨⟨hw, hh⟩, hr, hc⟩
  refine ⟨_, _, expandDrawbox_of_fits hfits s.cursor, execAll_stores (boxStores_mapped hfits) s, rfl, fun i j hi hj => ?_⟩
  have hstored {v : Byte} (hv : (i * 40 + j, v) ∈ boxStores r c w h) :
      (s.fb.setAll (boxStores r c w h)).read (i * 40 + j) = some v :=
    Memory.read_setAll_of_mem hwf (boxStores_mapped hfits) (boxStores_distinct hfits) hv
  simp only [mem_boxStores hfits hj] at hstored
  split_ifs with hUL hUR hLL hLR hH hV
  · exact hstored (by simp [hUL])
  · exact hstored (by simp [hUR])
  · exact hstored (by simp [hLL])
  · exact hstored (by simp [hLR])
  · obtain ⟨hi | hi, hcj⟩ := hH <;> exact hstored (by simp [hi, hcj])
  · obtain ⟨hj | hj, hri⟩ := hV <;> exact hstored (by simp [hj, hri])
  · refine Memory.read_setAll_other fun v hv => ?_
    rw [mem_boxStores hfits hj] at hv
    omega

/-- Settles O52: the expansion, the number and the offsets of `boxStores`. -/
theorem drawboxIssuesDistinctStoresInOrder : Obligations.DrawboxIssuesDistinctStoresInOrder := by
  intro r c w h cursor hw hh hr hc
  have hfits : BoxFits r c w h := ⟨⟨hw, hh⟩, hr, hc⟩
  exact ⟨expandDrawbox_of_fits hfits cursor, length_boxStores hfits, boxStores_distinct hfits, boxStores_mapped hfits⟩

/-- Settles O53: the two branches of the expander's check of R176's precondition. -/
theorem drawboxIsRefusedExactlyOutsideItsPreconditions :
    Obligations.DrawboxIsRefusedExactlyOutsideItsPreconditions := by
  intro r c w h cursor
  by_cases hfits : BoxFits r c w h
  · simp [expandDrawbox_of_fits hfits, hfits]
  · simp [expandDrawbox_of_not_fits hfits, hfits]

end Sys2Proof.Machine
end

section
/-! PROOFS. Faults and the boundaries inside a command (60_exceptions.md): what a boundary does with the turns that stand next,
that STATUS keeps its first cause until RESET, and that a legal command raises no fault. -/

namespace Sys2Proof.Machine

/-! ### A boundary takes the turns in order (R205, R206) -/

/-- The Timer's turn at a boundary is the step that takes its word, and the boundary goes on in the state it leaves. -/
theorem boundary_of_timer {s : State} {w : Word} {rest : List Turn} (h : s.turns = .timer w :: rest) :
    boundary s = andThen (step s) boundary := by
  rw [boundary, h, boundaryOver, step_timer h]
  cases hword : timerWord w { s with turns := rest } with
  | next u =>
    obtain ⟨-, -, -, -, -, hturns⟩ := timerWord_frame hword
    rw [andThen_of_next, andThen_of_next, boundary, hturns]
  | fault _ => rfl
  | refused _ => rfl

theorem boundary_of_nil {s : State} (h : s.turns = []) : boundary s = .next s := by
  rw [boundary, h, boundaryOver, ← h]

theorem boundary_of_reset {s : State} {rest : List Turn} (h : s.turns = .reset :: rest) : boundary s = .next s := by
  rw [boundary, h, boundaryOver, ← h]

/-- Settles O16: one equation of the boundary for each turn that can stand next, and one for none. -/
theorem boundaryTakesTheTimersWords : Obligations.BoundaryTakesTheTimersWords :=
  fun _ _ => ⟨fun _ => boundary_of_timer, boundary_of_host, boundary_of_nil, boundary_of_reset⟩

/-! ### What a command with legal operands keeps (R92, R110) -/

/-- P is kept by everything a command with legal operands is made of. Unlike `Kept` it says nothing of faults and RESET. -/
structure KeptByLegalCommand (P : State → Prop) : Prop where
  boundary : ∀ s t, P s → boundary s = .next t → P t
  write : ∀ a v s, P s → P { s with fb := s.fb.set a v }
  respond : ∀ v s, P s → P (respond v s)
  tick : ∀ s t, P s → runTick s = .next t → P t

section
variable {P : State → Prop}

theorem KeptByLegalCommand.runMicroOp (hk : KeptByLegalCommand P) {op : MicroOp} {s t : State} (hs : P s)
    (h : runMicroOp op s = .next t) : P t := by
  obtain ⟨a, -, -, rfl⟩ | ⟨a, v, -, -, rfl⟩ := runMicroOp_next h
  · exact hs
  · exact hk.write a v s hs

theorem KeptByLegalCommand.runRest (hk : KeptByLegalCommand P) {ops : List MicroOp} {s t : State} (hs : P s)
    (h : runRest ops s = .next t) : P t := by
  induction ops generalizing s with
  | nil =>
    obtain rfl := Host.Outcome.next.inj h
    exact hs
  | cons op ops ih =>
    obtain ⟨u, hboundary, h⟩ := andThen_next h
    obtain ⟨v, hop, h⟩ := andThen_next h
    exact ih (hk.runMicroOp (hk.boundary s u hs hboundary) hop) h

theorem KeptByLegalCommand.exec (hk : KeptByLegalCommand P) {i : Instr} (hi : i.WellFormed = true) {s t : State}
    (hs : P s) (h : exec i s = .next t) : P t := by
  cases i with
  | wrchar ofs code =>
    obtain rfl := Host.Outcome.next.inj ((execWrchar_legal (of_decide_eq_true hi) code s).symm.trans h)
    exact hk.write _ code s hs
  | rdcell ofs =>
    obtain rfl := Host.Outcome.next.inj ((execRdcell_legal (of_decide_eq_true hi) s).symm.trans h)
    exact hk.respond _ s hs
  | plot x y on =>
    obtain ⟨hx, hy⟩ : x.toNat < 80 ∧ y.toNat < 60 := by simpa [Instr.WellFormed, legalDot] using hi
    obtain ⟨u, hread, h⟩ := andThen_next ((exec_plot_legal hx hy on s).symm.trans h)
    exact hk.runRest (hk.runMicroOp hs hread) h
  | tick => exact hk.tick s t hs h

end

/-- A command with an operand out of range is one of the two range faults and nothing else (R92, R203). -/
theorem exec_of_not_wellFormed {i : Instr} (hi : i.WellFormed = false) (s : State) :
    ∃ c, exec i s = .next (raiseFault c s) := by
  cases i with
  | wrchar ofs code => exact ⟨_, execWrchar_range (Nat.not_lt.1 (of_decide_eq_false hi)) code s⟩
  | rdcell ofs => exact ⟨_, execRdcell_range (Nat.not_lt.1 (of_decide_eq_false hi)) s⟩
  | plot x y on =>
    have hdot : 80 ≤ x.toNat ∨ 60 ≤ y.toNat := by
      simpa only [Instr.WellFormed, legalDot, Bool.and_eq_false_iff, decide_eq_false_iff_not, Nat.not_lt] using hi
    exact ⟨_, execPlot_range hdot on s⟩
  | tick => cases hi

/-! ### A recorded fault stays (R202) -/

/-- STATUS holds a fault with this cause (R33). -/
def State.Recorded (c : Cause) (s : State) : Prop := s.faulted = true ∧ s.cause = c

/-- No later fault replaces the one recorded. -/
theorem State.Recorded.raiseFault {c : Cause} {s : State} (hs : s.Recorded c) (d : Cause) :
    (raiseFault d s).Recorded c := by
  obtain ⟨hfaulted, hcause⟩ := hs
  rw [Machine.raiseFault, if_pos hfaulted]
  exact ⟨hfaulted, hcause⟩

theorem State.Recorded.runTick {c : Cause} {s t : State} (hs : s.Recorded c) (h : runTick s = .next t) :
    t.Recorded c := by
  rwa [State.Recorded, runTick_faulted h, runTick_cause h]

theorem keptAtBoundary_recorded (c : Cause) : KeptAtBoundary (State.Recorded c) where
  turns := fun _ _ hs => hs
  fault := fun _ hs => hs.raiseFault _
  tick := fun _ _ hs h => hs.runTick h

theorem keptByLegalCommand_recorded (c : Cause) : KeptByLegalCommand (State.Recorded c) where
  boundary := fun _ _ hs h => (keptAtBoundary_recorded c).boundary hs h
  write := fun _ _ _ hs => hs
  respond := fun _ _ hs => hs
  tick := fun _ _ hs h => hs.runTick h

theorem State.Recorded.exec {c : Cause} {i : Instr} {s t : State} (hs : s.Recorded c) (h : exec i s = .next t) :
    t.Recorded c := by
  cases hi : i.WellFormed with
  | true => exact (keptByLegalCommand_recorded c).exec hi hs h
  | false =>
    obtain ⟨d, hfault⟩ := exec_of_not_wellFormed hi s
    obtain rfl := Host.Outcome.next.inj (hfault.symm.trans h)
    exact hs.raiseFault d

theorem State.Recorded.portWord {c : Cause} {p : Port} {w : Word} {s t : State} (hs : s.Recorded c)
    (h : portWord p w s = .next t) : t.Recorded c := by
  cases hd : decode p w with
  | command i => exact hs.exec ((portWord_of_decode hd s).symm.trans h)
  | illegal why =>
    obtain rfl := Host.Outcome.next.inj ((portWord_of_illegal hd s).symm.trans h)
    exact hs.raiseFault _

/-- An expansion is the host's own and does not reach STATUS (R5). -/
theorem State.Recorded.runPseudo {c : Cause} {s : State} (hs : s.Recorded c) (p : PseudoOp) (rest : List HostItem) :
    (runPseudo p rest s).Recorded c := by
  unfold Machine.runPseudo
  split <;> exact hs

theorem State.Recorded.hostMove {c : Cause} {s t : State} (hs : s.Recorded c) (h : hostMove s = .next t) :
    t.Recorded c := by
  cases hport : s.hostPort with
  | nil =>
    simp only [Machine.hostMove, hport, Host.Outcome.next.injEq] at h
    exact h ▸ hs
  | cons item rest =>
    cases item with
    | command w =>
      have hs' : State.Recorded c { s with hostPort := rest, turns := s.turns.tail } := hs
      exact hs'.portWord ((hostMove_command hport).symm.trans h)
    | pseudo p =>
      obtain rfl := Host.Outcome.next.inj ((hostMove_pseudo hport).symm.trans h)
      exact hs.runPseudo p rest

/-- Settles O39: on the host's and on the Timer's turn a step keeps the fault recorded; only a RESET is left out. -/
theorem statusKeepsItsFirstCauseUntilReset : Obligations.StatusKeepsItsFirstCauseUntilReset := by
  intro s t hfaulted hturn h
  have hs : s.Recorded s.cause := ⟨hfaulted, rfl⟩
  cases hturns : s.turns with
  | nil => exact hs.hostMove ((step_of_hostsTurn (.inl hturns)).symm.trans h)
  | cons turn rest =>
    cases turn with
    | host => exact hs.hostMove ((step_of_hostsTurn (.inr (by simp [hturns]))).symm.trans h)
    | timer w =>
      have hs' : State.Recorded s.cause { s with turns := rest } := hs
      exact (keptAtBoundary_recorded s.cause).timerWord hs' ((step_timer hturns).symm.trans h)
    | reset => exact absurd (by simp [hturns]) hturn

/-! ### A legal command raises no fault (R200) -/

/-- Every word the Timer is to present is the TICK word. -/
def State.TicksOnly (s : State) : Prop := ∀ w, .timer w ∈ s.turns → w = 0x80000000

theorem timerWord_tick (s : State) : timerWord 0x80000000 s = runTick s := by
  rw [timerWord, (onlyTickWordIsTheTableOne .timer _).2 ⟨rfl, rfl⟩]

/-- The Timer is to present TICKs only, and STATUS is that of s. -/
def State.UnfaultedSince (s t : State) : Prop := t.TicksOnly ∧ t.faulted = s.faulted ∧ t.cause = s.cause

/-- Using up a turn leaves TICKs only. -/
theorem State.UnfaultedSince.tail {s u : State} (hu : s.UnfaultedSince u) {turn : Turn} {rest : List Turn}
    (h : u.turns = turn :: rest) : s.UnfaultedSince { u with turns := rest } := by
  obtain ⟨hticks, hstatus⟩ := hu
  exact ⟨fun w hw => hticks w (h ▸ List.mem_cons_of_mem turn hw), hstatus⟩

theorem State.UnfaultedSince.runTick {s u v : State} (hu : s.UnfaultedSince u) (h : runTick u = .next v) :
    s.UnfaultedSince v := by
  rwa [State.UnfaultedSince, State.TicksOnly, runTick_turns h, runTick_faulted h, runTick_cause h]

/-- The Timer's turns at a boundary are ticks, one after the other, and a tick raises no fault (R142). -/
theorem State.UnfaultedSince.boundary {s u v : State} (hu : s.UnfaultedSince u) (h : boundary u = .next v) :
    s.UnfaultedSince v := by
  induction hturns : u.turns generalizing u with
  | nil =>
    obtain rfl := Host.Outcome.next.inj ((boundary_of_nil hturns).symm.trans h)
    exact hu
  | cons turn rest ih =>
    cases turn with
    | host =>
      obtain rfl := Host.Outcome.next.inj ((boundary_of_host hturns).symm.trans h)
      exact hu.tail hturns
    | reset =>
      obtain rfl := Host.Outcome.next.inj ((boundary_of_reset hturns).symm.trans h)
      exact hu
    | timer w =>
      obtain ⟨hticks, -⟩ := id hu
      obtain rfl : w = 0x80000000 := hticks w (by simp [hturns])
      rw [boundary_of_timer hturns, step_timer hturns, timerWord_tick] at h
      obtain ⟨x, htick, h⟩ := andThen_next h
      exact ih ((hu.tail hturns).runTick htick) h (runTick_turns htick)

theorem keptByLegalCommand_unfaultedSince (s : State) : KeptByLegalCommand s.UnfaultedSince where
  boundary := fun _ _ hu h => hu.boundary h
  write := fun _ _ _ hu => hu
  respond := fun _ _ hu => hu
  tick := fun _ _ hu h => hu.runTick h

/-- Settles O40: the command completes (`exec_runs`), and none of its parts raises a fault. -/
theorem legalCommandsRaiseNoFault : Obligations.LegalCommandsRaiseNoFault := by
  intro i s hi hscan hticks
  obtain ⟨t, hrun, -, -⟩ := exec_runs i hscan
  obtain ⟨-, hstatus⟩ := (keptByLegalCommand_unfaultedSince s).exec hi ⟨hticks, rfl, rfl⟩ hrun
  exact ⟨t, hrun, hstatus⟩

end Sys2Proof.Machine
end

section
/-! PROOFS. RESET and the blank framebuffer (70_reset_and_hazards.md): what a step that applies RESET leaves, and that blanking
the framebuffer offset by offset leaves what RESET leaves. -/

namespace Sys2Proof.Machine

/-! ### A RESET turn (R230) -/

theorem step_reset {s : State} {rest : List Turn} (h : s.turns = .reset :: rest) :
    step s = .next (applyReset { s with turns := rest }) := by
  simp only [step, h]

/-- Settles O15: RESET gives every piece of the block's state the value it has in State.reset. -/
theorem resetSetsEveryPieceOfState : Obligations.ResetSetsEveryPieceOfState := by
  intro s rest h
  obtain ⟨hblank, -⟩ := resetValuesAreTheCollectedOnes
  exact ⟨_, step_reset h, hblank, rfl, rfl, rfl, rfl, rfl, rfl, rfl, rfl, rfl, rfl⟩

/-! ### Blanking the framebuffer (R231) -/

/-- The memory after BLANK_CODE has been written to the offsets 0..n-1 in order. -/
def Memory.blankBelow (m : Memory) (n : Nat) : Memory := (List.range n).foldl (fun m a => m.set a Config.blankCode) m

theorem Memory.blankBelow_succ (m : Memory) (n : Nat) :
    m.blankBelow (n + 1) = (m.blankBelow n).set n Config.blankCode := by
  simp only [Memory.blankBelow, List.range_succ, List.foldl_append, List.foldl_cons, List.foldl_nil]

theorem Memory.wf_blankBelow {m : Memory} (hm : m.wf = true) {n : Nat} (hn : n ≤ 800) : (m.blankBelow n).wf = true := by
  induction n with
  | zero => exact hm
  | succ n ih =>
    rw [Memory.blankBelow_succ]
    exact Memory.wf_set (ih (by omega)) hn Config.blankCode

theorem Memory.get_blankBelow {m : Memory} (hm : m.wf = true) {n a : Nat} (hn : n ≤ 800) (ha : a < n) :
    (m.blankBelow n).get a = Config.blankCode := by
  induction n with
  | zero => omega
  | succ n ih =>
    rw [Memory.blankBelow_succ]
    by_cases hlast : a = n
    · rw [hlast, Memory.get_set_same (Memory.wf_blankBelow hm (by omega))]
    · rw [Memory.get_set_other hlast, ih (by omega) (by omega)]

/-- Blank contents in canonical form are the reset contents: they list no offset, and an offset from 800 on reads as blank. -/
theorem Memory.eq_reset_of_blank {m : Memory} (hm : m.wf = true) (hblank : ∀ a, a < 800 → m.get a = Config.blankCode) :
    m = State.reset.fb := by
  refine Memory.eq_of_get hm resetStateHasTheInvariant.fb fun a => ?_
  by_cases ha : a < 800
  · exact hblank a ha
  · exact Memory.get_outside hm (Nat.le_of_not_lt ha)

/-- Settles O46: the writes keep the canonical form and leave every mapped offset blank; bits [7:6] of BLANK_CODE are 0b00. -/
theorem blankingEveryOffsetGivesTheResetFramebuffer : Obligations.BlankingEveryOffsetGivesTheResetFramebuffer := by
  refine ⟨fun m hm => ?_, by decide, by decide⟩
  have hwf : (m.blankBelow 800).wf = true := Memory.wf_blankBelow hm le_rfl
  exact Memory.eq_reset_of_blank hwf fun a => Memory.get_blankBelow hm le_rfl

end Sys2Proof.Machine
end
